-- ==== Sys2Proof/Word.lean ====
section
/-! DEFINITION. The widths of the values the spec names: u8, u16 and u12 values are bit vectors (R9), and a
register number is a name out of sixteen (R21). -/

namespace Sys2Proof

/-- A u8 value: a register `V`, a timer, a byte of memory, the immediate `NN` (R7, R9). -/
abbrev Byte := BitVec 8

/-- A u16 value: `I`, `PC`, a return address, an instruction word (R7, R9). -/
abbrev Word := BitVec 16

/-- A u12 value: the address immediate `NNN` (R83, R84). -/
abbrev Addr12 := BitVec 12

/-- The number of a general register, `V0` to `VF` (R21). -/
abbrev Reg := Fin 16

end Sys2Proof
end

