-- ==== Sys2Proof/Syntax.lean ====
section
/-! DEFINITION. The 34 instructions of spec/opcode_table.json, one constructor a row, in the table's order. -/

namespace Sys2Proof

/-- The instructions (R2, R86). A register operand is a `Reg`, `nn` is the 8-bit immediate, `nnn` the 12-bit address
immediate and `n` the row count of a sprite (R85). -/
inductive Instr where
  /-- 00E0, `CLS` (R111). -/
  | cls
  /-- 00EE, `RET` (R112). -/
  | ret
  /-- 1NNN, `JP addr` (R113). -/
  | jp (nnn : Addr12)
  /-- 2NNN, `CALL addr` (R114). -/
  | call (nnn : Addr12)
  /-- 3XNN, `SE Vx, byte` (R131). -/
  | seImm (x : Reg) (nn : Byte)
  /-- 4XNN, `SNE Vx, byte` (R132). -/
  | sneImm (x : Reg) (nn : Byte)
  /-- 5XY0, `SE Vx, Vy` (R133). -/
  | seReg (x y : Reg)
  /-- 6XNN, `LD Vx, byte` (R151). -/
  | ldImm (x : Reg) (nn : Byte)
  /-- 7XNN, `ADD Vx, byte` (R152). -/
  | addImm (x : Reg) (nn : Byte)
  /-- 8XY0, `LD Vx, Vy` (R153). -/
  | ldReg (x y : Reg)
  /-- 8XY1, `OR Vx, Vy` (R154). -/
  | orReg (x y : Reg)
  /-- 8XY2, `AND Vx, Vy` (R155). -/
  | andReg (x y : Reg)
  /-- 8XY3, `XOR Vx, Vy` (R156). -/
  | xorReg (x y : Reg)
  /-- 8XY4, `ADD Vx, Vy` (R157). -/
  | addReg (x y : Reg)
  /-- 8XY5, `SUB Vx, Vy` (R158). -/
  | subReg (x y : Reg)
  /-- 8XY6, `SHR Vx, Vy` (R159); the word has a `Y` field, which the instruction ignores (R94). -/
  | shrReg (x y : Reg)
  /-- 8XY7, `SUBN Vx, Vy` (R160). -/
  | subnReg (x y : Reg)
  /-- 8XYE, `SHL Vx, Vy` (R161); the word has a `Y` field, which the instruction ignores (R94). -/
  | shlReg (x y : Reg)
  /-- 9XY0, `SNE Vx, Vy` (R134). -/
  | sneReg (x y : Reg)
  /-- ANNN, `LD I, addr` (R181). -/
  | ldI (nnn : Addr12)
  /-- BNNN, `JP V0, addr` (R115). -/
  | jpV0 (nnn : Addr12)
  /-- CXNN, `RND Vx, byte` (R162). -/
  | rnd (x : Reg) (nn : Byte)
  /-- DXYN, `DRW Vx, Vy, nibble` (R203); `n` is a count of rows, and a word holds one of 0 to 15. -/
  | drw (x y : Reg) (n : Nat)
  /-- EX9E, `SKP Vx` (R135). -/
  | skp (x : Reg)
  /-- EXA1, `SKNP Vx` (R136). -/
  | sknp (x : Reg)
  /-- FX07, `LD Vx, DT` (R220). -/
  | ldDT (x : Reg)
  /-- FX0A, `LD Vx, K` (R223). -/
  | waitKey (x : Reg)
  /-- FX15, `LD DT, Vx` (R221). -/
  | setDT (x : Reg)
  /-- FX18, `LD ST, Vx` (R222). -/
  | setST (x : Reg)
  /-- FX1E, `ADD I, Vx` (R182). -/
  | addI (x : Reg)
  /-- FX29, `LD F, Vx` (R183). -/
  | ldFont (x : Reg)
  /-- FX33, `LD B, Vx` (R184). -/
  | bcd (x : Reg)
  /-- FX55, `LD [I], Vx` (R185). -/
  | storeRegs (x : Reg)
  /-- FX65, `LD Vx, [I]` (R186). -/
  | loadRegs (x : Reg)
  deriving DecidableEq, Repr

end Sys2Proof
end

