-- ==== Sys2Proof/WellFormed.lean ====
section
/-! DEFINITION. Which terms of `Instr` stand for an instruction word. The operand types already bound every register
number and immediate, so the one check left is DXYN's row count. -/

namespace Sys2Proof

/-- Every operand fits its field (R83): a sprite has 0 to 15 rows (R85). -/
def Instr.wellFormed : Instr → Bool
  | .drw _ _ n => decide (n ≤ 15)
  | .cls | .ret | .jp _ | .call _ | .seImm _ _ | .sneImm _ _ | .seReg _ _ | .ldImm _ _ | .addImm _ _
  | .ldReg _ _ | .orReg _ _ | .andReg _ _ | .xorReg _ _ | .addReg _ _ | .subReg _ _ | .shrReg _ _
  | .subnReg _ _ | .shlReg _ _ | .sneReg _ _ | .ldI _ | .jpV0 _ | .rnd _ _ | .skp _ | .sknp _ | .ldDT _
  | .waitKey _ | .setDT _ | .setST _ | .addI _ | .ldFont _ | .bcd _ | .storeRegs _ | .loadRegs _ => true

end Sys2Proof
end

