-- ==== Sys2Proof/Decode.lean ====
section
/-! DEFINITION. Decoding (R87 to R94), total on every word and on any bytes, and the encoder of R86. -/

namespace Sys2Proof

/-- Why a word, or a run of bytes, is no instruction (R93). -/
inductive DecodeReject where
  /-- R88: op = 0x0 and the word is neither 0x00E0 nor 0x00EE. -/
  | system
  /-- R89: op = 0x5 or 0x9 and N ≠ 0x0. -/
  | skipSelector
  /-- R90: op = 0x8 and N is 0x8 to 0xD or 0xF. -/
  | aluSelector
  /-- R91: op = 0xE and NN is neither 0x9E nor 0xA1. -/
  | keySelector
  /-- R92: op = 0xF and NN is none of the nine selectors. -/
  | miscSelector
  /-- Fewer than the two bytes of an instruction (R80). The machine never meets it: a fetch is two bytes. -/
  | truncated
  deriving DecidableEq, Repr

/-- `op` = w[15:12] (R83). -/
def fieldOp (w : Word) : BitVec 4 := w.extractLsb' 12 4

/-- `X` = w[11:8] as a register number (R83). -/
def fieldX (w : Word) : Reg := (w.extractLsb' 8 4).toFin

/-- `Y` = w[7:4] as a register number (R83). -/
def fieldY (w : Word) : Reg := (w.extractLsb' 4 4).toFin

/-- `N` = w[3:0] (R83). -/
def fieldN (w : Word) : BitVec 4 := w.extractLsb' 0 4

/-- `NN` = w[7:0] (R83). -/
def fieldNN (w : Word) : Byte := w.extractLsb' 0 8

/-- `NNN` composed from the `X` nibble and the low byte, as R84 writes it. -/
def fieldNNN (w : Word) : Addr12 :=
  ((w.extractLsb' 8 4).setWidth 12 <<< 8) ||| (fieldNN w).setWidth 12

/-- The family op = 0x0, selected by the whole word (R88). -/
def decodeSystem (w : Word) : Except DecodeReject Instr :=
  if w = 0x00E0#16 then .ok .cls
  else if w = 0x00EE#16 then .ok .ret
  else .error .system

/-- The family op = 0x8, selected by `N` (R90). -/
def decodeAlu (w : Word) : Except DecodeReject Instr :=
  let x := fieldX w
  let y := fieldY w
  match (fieldN w).toNat with
  | 0x0 => .ok (.ldReg x y)
  | 0x1 => .ok (.orReg x y)
  | 0x2 => .ok (.andReg x y)
  | 0x3 => .ok (.xorReg x y)
  | 0x4 => .ok (.addReg x y)
  | 0x5 => .ok (.subReg x y)
  | 0x6 => .ok (.shrReg x y)
  | 0x7 => .ok (.subnReg x y)
  | 0xE => .ok (.shlReg x y)
  | _ => .error .aluSelector

/-- The family op = 0xE, selected by `NN` (R91). -/
def decodeKey (w : Word) : Except DecodeReject Instr :=
  match (fieldNN w).toNat with
  | 0x9E => .ok (.skp (fieldX w))
  | 0xA1 => .ok (.sknp (fieldX w))
  | _ => .error .keySelector

/-- The family op = 0xF, selected by `NN` (R92). -/
def decodeMisc (w : Word) : Except DecodeReject Instr :=
  let x := fieldX w
  match (fieldNN w).toNat with
  | 0x07 => .ok (.ldDT x)
  | 0x0A => .ok (.waitKey x)
  | 0x15 => .ok (.setDT x)
  | 0x18 => .ok (.setST x)
  | 0x1E => .ok (.addI x)
  | 0x29 => .ok (.ldFont x)
  | 0x33 => .ok (.bcd x)
  | 0x55 => .ok (.storeRegs x)
  | 0x65 => .ok (.loadRegs x)
  | _ => .error .miscSelector

/-- `decode(w)`: the top nibble selects the family (R87). -/
def decodeWord (w : Word) : Except DecodeReject Instr :=
  let x := fieldX w
  let y := fieldY w
  let nn := fieldNN w
  let nnn := fieldNNN w
  match (fieldOp w).toNat with
  | 0x0 => decodeSystem w
  | 0x1 => .ok (.jp nnn)
  | 0x2 => .ok (.call nnn)
  | 0x3 => .ok (.seImm x nn)
  | 0x4 => .ok (.sneImm x nn)
  | 0x5 => if fieldN w = 0x0#4 then .ok (.seReg x y) else .error .skipSelector
  | 0x6 => .ok (.ldImm x nn)
  | 0x7 => .ok (.addImm x nn)
  | 0x8 => decodeAlu w
  | 0x9 => if fieldN w = 0x0#4 then .ok (.sneReg x y) else .error .skipSelector
  | 0xA => .ok (.ldI nnn)
  | 0xB => .ok (.jpV0 nnn)
  | 0xC => .ok (.rnd x nn)
  | 0xD => .ok (.drw x y (fieldN w).toNat)
  | 0xE => decodeKey w
  | _ => decodeMisc w -- four bits: op = 0xF

/-- The instruction word of two bytes in the order memory holds them: the first is the high byte (R58, R60). -/
def wordOfBytes (hi lo : Byte) : Word := hi ++ lo

/-- Decoding a run of bytes: the instruction of the first two and the bytes that follow it (R80). -/
def decode : List Byte → Except DecodeReject (Instr × List Byte)
  | hi :: lo :: rest =>
    match decodeWord (wordOfBytes hi lo) with
    | .ok i => .ok (i, rest)
    | .error r => .error r
  | [] => .error .truncated
  | [_] => .error .truncated

/-- The two bytes of a word in memory order, high byte first (R58). -/
def bytesOfWord (w : Word) : List Byte := [w.extractLsb' 8 8, w.extractLsb' 0 8]

/-- Format `NNN` of R86: op ‖ NNN. -/
def encNNN (op : BitVec 4) (nnn : Addr12) : Word := op ++ nnn

/-- Formats `XNN` and `XS` of R86: op ‖ X ‖ NN. -/
def encXNN (op : BitVec 4) (x : Reg) (nn : Byte) : Word := op ++ (BitVec.ofFin x : BitVec 4) ++ nn

/-- Formats `XYS` and `XYN` of R86: op ‖ X ‖ Y ‖ N. -/
def encXYN (op : BitVec 4) (x y : Reg) (n : BitVec 4) : Word :=
  op ++ (BitVec.ofFin x : BitVec 4) ++ (BitVec.ofFin y : BitVec 4) ++ n

/-- The word of a well-formed instruction, from the encodings of R86 to R92. -/
def encodeWord : Instr → Word
  | .cls => 0x00E0#16
  | .ret => 0x00EE#16
  | .jp nnn => encNNN 0x1#4 nnn
  | .call nnn => encNNN 0x2#4 nnn
  | .seImm x nn => encXNN 0x3#4 x nn
  | .sneImm x nn => encXNN 0x4#4 x nn
  | .seReg x y => encXYN 0x5#4 x y 0x0#4
  | .ldImm x nn => encXNN 0x6#4 x nn
  | .addImm x nn => encXNN 0x7#4 x nn
  | .ldReg x y => encXYN 0x8#4 x y 0x0#4
  | .orReg x y => encXYN 0x8#4 x y 0x1#4
  | .andReg x y => encXYN 0x8#4 x y 0x2#4
  | .xorReg x y => encXYN 0x8#4 x y 0x3#4
  | .addReg x y => encXYN 0x8#4 x y 0x4#4
  | .subReg x y => encXYN 0x8#4 x y 0x5#4
  | .shrReg x y => encXYN 0x8#4 x y 0x6#4
  | .subnReg x y => encXYN 0x8#4 x y 0x7#4
  | .shlReg x y => encXYN 0x8#4 x y 0xE#4
  | .sneReg x y => encXYN 0x9#4 x y 0x0#4
  | .ldI nnn => encNNN 0xA#4 nnn
  | .jpV0 nnn => encNNN 0xB#4 nnn
  | .rnd x nn => encXNN 0xC#4 x nn
  | .drw x y n => encXYN 0xD#4 x y (BitVec.ofNat 4 n)
  | .skp x => encXNN 0xE#4 x 0x9E#8
  | .sknp x => encXNN 0xE#4 x 0xA1#8
  | .ldDT x => encXNN 0xF#4 x 0x07#8
  | .waitKey x => encXNN 0xF#4 x 0x0A#8
  | .setDT x => encXNN 0xF#4 x 0x15#8
  | .setST x => encXNN 0xF#4 x 0x18#8
  | .addI x => encXNN 0xF#4 x 0x1E#8
  | .ldFont x => encXNN 0xF#4 x 0x29#8
  | .bcd x => encXNN 0xF#4 x 0x33#8
  | .storeRegs x => encXNN 0xF#4 x 0x55#8
  | .loadRegs x => encXNN 0xF#4 x 0x65#8

/-- The bytes of an instruction as memory holds them (R58, R80). -/
def encode (i : Instr) : List Byte := bytesOfWord (encodeWord i)

/-- The instruction the decoder reads from a row's word as spec/opcode_table.json numbers its bits: an instruction is one
16-bit word, so `w`'s low `nbits` bits are that word (R80, R82), laid out high byte first (R58). -/
def decodeTableWord (nbits w : Nat) : Option Instr :=
  match decode (bytesOfWord (BitVec.ofNat 16 (w % 2 ^ nbits))) with
  | .ok (i, _) => some i
  | .error _ => none

end Sys2Proof
end

