-- ==== Sys2Proof/Config.lean ====
section
/-! DEFINITION. What an implementation fixes before Reset (R8, R35) and the value the spec leaves free. -/

namespace Sys2Proof

/-- `STACK_DEPTH`: the most return addresses the call stack holds, a positive number or no limit (R8(a), D14). OPEN: the
spec takes no default, so every state carries its own and a statement about every state holds for every depth. -/
inductive StackDepth where
  | unbounded
  | bounded (limit : Nat) (positive : 0 < limit)
  deriving DecidableEq, Repr

/-- `FONT`: the 80 bytes of the font table (R8(c), R53). -/
abbrev Font := Vector Byte 80

/-- The three parameters of R8 that are fixed before Reset. -/
structure Config where
  /-- `STACK_DEPTH`, R8(a). -/
  stackDepth : StackDepth
  /-- `LS_INCREMENTS_I`, R8(b): do FX55 and FX65 add X+1 to I. -/
  lsIncrementsI : Bool
  /-- `FONT`, R8(c). -/
  font : Font
  deriving DecidableEq, Repr

/-- `draw_random()` (R13, R162): the byte that the `k`-th execution of CXNN draws. A FREE VALUE: the spec assumes no
distribution and no relation between draws (D18), and nothing in Lean can tell a value of it. See
notes/assumptions/1.md. -/
opaque Config.randomByte : Nat → Byte

end Sys2Proof
end

