-- ==== Sys2Proof/Machine/Params.lean ====
section
/-! DEFINITION. The values of R8's parameters in the machine that `State.reset` starts. -/

namespace Sys2Proof.Machine

/-- The 80 bytes of the spec's default FONT, one glyph of five bytes a line (R53; general knowledge, D3).
See notes/assumptions/3.md. -/
def defaultFontBytes : List Byte :=
  [0xF0, 0x90, 0x90, 0x90, 0xF0] ++ -- 0
  [0x20, 0x60, 0x20, 0x20, 0x70] ++ -- 1
  [0xF0, 0x10, 0xF0, 0x80, 0xF0] ++ -- 2
  [0xF0, 0x10, 0xF0, 0x10, 0xF0] ++ -- 3
  [0x90, 0x90, 0xF0, 0x10, 0x10] ++ -- 4
  [0xF0, 0x80, 0xF0, 0x10, 0xF0] ++ -- 5
  [0xF0, 0x80, 0xF0, 0x90, 0xF0] ++ -- 6
  [0xF0, 0x10, 0x20, 0x40, 0x40] ++ -- 7
  [0xF0, 0x90, 0xF0, 0x90, 0xF0] ++ -- 8
  [0xF0, 0x90, 0xF0, 0x10, 0xF0] ++ -- 9
  [0xF0, 0x90, 0xF0, 0x90, 0x90] ++ -- A
  [0xE0, 0x90, 0xE0, 0x90, 0xE0] ++ -- B
  [0xF0, 0x80, 0x80, 0x80, 0xF0] ++ -- C
  [0xE0, 0x90, 0x90, 0x90, 0xE0] ++ -- D
  [0xF0, 0x80, 0xF0, 0x80, 0xF0] ++ -- E
  [0xF0, 0x80, 0xF0, 0x80, 0x80]    -- F

/-- The spec's default FONT (R8(c), R53). -/
def defaultFont : Font := ⟨⟨defaultFontBytes⟩, rfl⟩

/-- The spec's default of `LS_INCREMENTS_I` (R8(b), D15). See notes/assumptions/4.md. -/
def defaultLsIncrementsI : Bool := false

/-- The stack depth of the spec's test vectors, "unbounded unless a vector names a value" (95_test_vectors.md): the spec
takes no default (R8(a), D14), and the one state `State.reset` needs some depth. See notes/assumptions/2.md. -/
def vectorStackDepth : StackDepth := .unbounded

/-- The parameters of the machine that `State.reset` starts. -/
def defaultConfig : Config where
  stackDepth := vectorStackDepth
  lsIncrementsI := defaultLsIncrementsI
  font := defaultFont

end Sys2Proof.Machine
end

