-- ==== Sys2Proof/Machine/State.lean ====
section
/-! DEFINITION. The state record of R20 as plain data, the reasons a step can stop, and the state after Reset (R40). -/

namespace Sys2Proof.Machine

/-- The 4096 bytes of memory (R32), as the bytes that differ from what Reset leaves there: (address, byte) pairs in the
canonical form `Memory.wf` of Machine/Memory.lean, where the reading and writing of memory stand. -/
abbrev Memory := List Host.Cell

/-- The 64×32 grid of pixels: `screen[x][y]` is column x, row y, and true means the pixel is set (R33). -/
abbrev Screen := Vector (Vector Bool 32) 64

/-- An output notification (R39). -/
inductive Event where
  /-- `PixelChanged(x, y, isSet)`: a 1-bit of a sprite was applied to a pixel (R200). -/
  | pixelChanged (x : Fin 64) (y : Fin 32) (isSet : Bool)
  /-- `ScreenReset`: 00E0 or Reset cleared the screen (R253). -/
  | screenReset
  /-- `PlayTone`: Ticker found ST equal to 1 (R250). -/
  | playTone
  deriving DecidableEq, Repr

/-- A fatal condition with the information it records (R241), the value of the `fault` element (R38). -/
inductive Fatal where
  /-- Code 1, raised by Next: the word at `pc` is an illegal encoding. -/
  | decodeError (pc w : Word)
  /-- Code 2, raised by 00EE: the stack is empty. -/
  | stackUnderflow (pc : Word)
  /-- Code 3, raised by 2NNN: the stack holds STACK_DEPTH entries. -/
  | stackOverflow (pc : Word)
  /-- Code 4, raised by Next: `pc` is above 0x0FFE. -/
  | fetchOutOfRange (pc : Word)
  /-- Code 5, raised by DXYN, FX33, FX55 and FX65: `addr` is the lowest offending address. -/
  | dataOutOfRange (pc : Word) (addr : Nat)
  /-- Code 6, raised by EX9E and EXA1: `key` is V[x], above 0x0F. -/
  | keyIndexOutOfRange (pc : Word) (key : Byte)
  deriving DecidableEq, Repr

/-- The six host operations (R4, R15). -/
inductive HostOp where
  /-- One fetch-decode-execute step (R81). -/
  | next
  /-- R280. -/
  | reset
  /-- R284: the bytes of the ROM image; S is their number. -/
  | load (bytes : List Byte)
  /-- R250. -/
  | ticker
  /-- R260. -/
  | keyDown (idx : Nat)
  /-- R261. -/
  | keyUp (idx : Nat)
  deriving DecidableEq, Repr

/-- The machine's state: the eleven elements of R20, and after them three fields that are the MODEL's own. -/
@[ext]
structure State where
  /-- V0 to VF (R21). -/
  v : Vector Byte 16
  /-- The index register I (R27). -/
  i : Word
  /-- The program counter (R25). -/
  pc : Word
  /-- DT, the delay timer (R29). -/
  dt : Byte
  /-- ST, the sound timer (R30). -/
  st : Byte
  /-- The call stack (R31), its top first. -/
  stack : List Word
  /-- Memory (R32). -/
  mem : Memory
  /-- The framebuffer (R33). -/
  screen : Screen
  /-- The keypad: true means the key is down (R34). -/
  keys : Vector Bool 16
  /-- The fatal condition that stopped the CORE, if one did (R38). -/
  fault : Option Fatal
  /-- The log of output notifications, oldest first (R39). -/
  events : List Event
  /-- The MODEL's own: the parameters of R8, fixed before Reset; no step writes it. See notes/assumptions/5.md. -/
  cfg : Config
  /-- The MODEL's own: how many random bytes CXNN has drawn. See notes/assumptions/1.md. -/
  draws : Nat
  /-- The MODEL's own: the host operations still to come, in their total order (R63, R292); when none is listed the
  host calls Next. See notes/assumptions/6.md. -/
  schedule : List HostOp
  deriving DecidableEq, Repr

/-- Why the machine has no step. -/
inductive Fault where
  /-- Raised by `step` when Next is asked of a faulted CORE (R38, R244); `f` is the fatal condition recorded. SAFE: the
  spec gives Next no step here. -/
  | halted (f : Fatal)
  deriving DecidableEq, Repr

/-- Why the model gives an instruction no meaning. -/
inductive Refusal where
  /-- Raised by an arm of `exec` whose instruction has no meaning yet; no arm does. SAFE. -/
  | notModelled (mnemonic : String)
  deriving DecidableEq, Repr

/-- The outcome of one step of this machine. -/
abbrev Result := Host.Outcome State Fault Refusal

/-- The machine with given parameters right after its first Reset (R40), with nothing listed in memory: an unlisted address
reads as Reset leaves it. The event log is empty before that Reset (notes/assumptions/7.md). -/
def State.resetWith (cfg : Config) : State where
  v := Vector.replicate 16 0
  i := 0x0000
  pc := 0x0200
  dt := 0x00
  st := 0x00
  stack := []
  mem := []
  screen := Vector.replicate 64 (Vector.replicate 32 false)
  keys := Vector.replicate 16 false
  fault := none
  events := [.screenReset]
  cfg := cfg
  draws := 0
  schedule := []

/-- The machine right after its first Reset, with the parameters of Machine/Params.lean. -/
def State.reset : State := State.resetWith defaultConfig

end Sys2Proof.Machine
end

