-- ==== Sys2Proof/Machine/Memory.lean ====
section
/-! DEFINITION. Memory (R50 to R69): what Reset leaves at an address, reading, writing, and the canonical form. -/

namespace Sys2Proof.Machine

/-- MEM_SIZE (R7). -/
def memSize : Nat := 4096

/-- What Reset leaves at an address, and so what an unlisted address reads as (R51): the font table, then zeros. -/
def resetByte (font : Font) (a : Nat) : Byte :=
  if h : a < 80 then font[a] else 0

/-- The byte listed for an address. -/
def memLookup : Memory → Nat → Option Byte
  | [], _ => none
  | (k, b) :: m, a => if k = a then some b else memLookup m a

/-- `get(addr)` (R54). -/
def memRead (font : Font) (m : Memory) (a : Nat) : Byte :=
  (memLookup m a).getD (resetByte font a)

/-- The list without an entry for an address. -/
def memErase : Memory → Nat → Memory
  | [], _ => []
  | (k, b) :: m, a => if k = a then m else (k, b) :: memErase m a

/-- The list with one entry for an address, its place kept by rising address. -/
def memInsert : Memory → Nat → Byte → Memory
  | [], a, b => [(a, b)]
  | (k, c) :: m, a, b =>
    if a < k then (a, b) :: (k, c) :: m
    else if a = k then (a, b) :: m
    else (k, c) :: memInsert m a b

/-- `set(addr, v)` (R54). Writing what an unlisted address reads as removes the entry. -/
def memWrite (font : Font) (m : Memory) (a : Nat) (b : Byte) : Memory :=
  if b = resetByte font a then memErase m a else memInsert m a b

/-- `MemRead(addr, n)` (R12): the n bytes from `a` on. -/
def memReadList (font : Font) (m : Memory) (a : Nat) : Nat → List Byte
  | 0 => []
  | n + 1 => memRead font m a :: memReadList font m (a + 1) n

/-- `MemWrite(addr, n, v)` (R12): the bytes at consecutive addresses from `a` on. -/
def memWriteList (font : Font) (m : Memory) (a : Nat) : List Byte → Memory
  | [] => m
  | b :: bs => memWriteList font (memWrite font m a b) (a + 1) bs

/-- The canonical form above an address: addresses strictly rising and below MEM_SIZE, no entry equal to what an unlisted
address reads as. -/
def memWfFrom (font : Font) : Nat → Memory → Bool
  | _, [] => true
  | lo, (a, b) :: m =>
    decide (lo ≤ a) && decide (a < memSize) && decide (b ≠ resetByte font a) && memWfFrom font (a + 1) m

/-- The canonical form of a memory: equal memories are equal lists. -/
def Memory.wf (font : Font) (m : Memory) : Bool := memWfFrom font 0 m

end Sys2Proof.Machine
end

