-- ==== Sys2Proof/Machine/Screen.lean ====
section
/-! DEFINITION. The framebuffer: pixels, clearing and the draw primitive (R33, R200 to R202). -/

namespace Sys2Proof.Machine

/-- A pixel's place: column, row (R33). -/
abbrev Pixel := Fin 64 × Fin 32

/-- `screen[x][y]`. -/
def getPixel (sc : Screen) (p : Pixel) : Bool := sc[p.1.val][p.2.val]

/-- `screen[x][y] <- b`. -/
def setPixel (sc : Screen) (p : Pixel) (b : Bool) : Screen :=
  sc.set p.1.val (sc[p.1.val].set p.2.val b)

/-- The screen with every pixel clear. -/
def blankScreen : Screen := Vector.replicate 64 (Vector.replicate 32 false)

/-- The columns `i`, counted from the most significant bit, at which a row byte holds a 1 (R200: `rows[j][7−i] = 1`). -/
def rowBits (b : Byte) : List Nat := [0, 1, 2, 3, 4, 5, 6, 7].filter fun i => b.getLsbD (7 - i)

/-- The pixel that bit `i` of row `j` lands on (R202: both the start coordinate and each offset wrap). -/
def spritePixel (cx cy : Byte) (j i : Nat) : Pixel :=
  (⟨(cx.toNat + i) % 64, Nat.mod_lt _ (by decide)⟩, ⟨(cy.toNat + j) % 32, Nat.mod_lt _ (by decide)⟩)

/-- The pixels that the 1-bits of a sprite land on, in row order and most significant bit first (R200); `j` is the number
of the first row listed. -/
def spritePixels (cx cy : Byte) : Nat → List Byte → List Pixel
  | _, [] => []
  | j, b :: rows => (rowBits b).map (spritePixel cx cy j) ++ spritePixels cx cy (j + 1) rows

/-- What a draw leaves. -/
structure Drawn where
  screen : Screen
  collision : Bool
  events : List Event
  deriving DecidableEq, Repr

/-- XOR a 1 into each listed pixel in turn (R200): a pixel that was set collides, and each emits its new value. -/
def togglePixels : Screen → List Pixel → Drawn
  | sc, [] => ⟨sc, false, []⟩
  | sc, p :: ps =>
    let old := getPixel sc p
    let rest := togglePixels (setPixel sc p (!old)) ps
    ⟨rest.screen, old || rest.collision, .pixelChanged p.1 p.2 (!old) :: rest.events⟩

/-- `ScreenDraw(cx, cy, rows)` (R200). -/
def screenDraw (sc : Screen) (cx cy : Byte) (rows : List Byte) : Drawn :=
  togglePixels sc (spritePixels cx cy 0 rows)

end Sys2Proof.Machine
end

