-- ==== Sys2Proof/Machine/Ops.lean ====
section
/-! DEFINITION. The named operations over the state that every meaning is written with: registers, PC, the call stack,
memory, the event log, and the taking of a fatal condition with its one way back. -/

namespace Sys2Proof.Machine

/-- Read `V[x]` (R11, R21). -/
def State.getV (s : State) (x : Reg) : Byte := s.v[x.val]

/-- `V[x] <- b` (R11, R21). -/
def State.setV (s : State) (x : Reg) (b : Byte) : State := { s with v := s.v.set x.val b }

/-- `I <- w` (R27). -/
def State.setI (s : State) (w : Word) : State := { s with i := w }

/-- `PC <- w` (R25). -/
def State.setPc (s : State) (w : Word) : State := { s with pc := w }

/-- `DT <- b` (R29). -/
def State.setDT (s : State) (b : Byte) : State := { s with dt := b }

/-- `ST <- b` (R30). -/
def State.setST (s : State) (b : Byte) : State := { s with st := b }

/-- The call stack replaced (R31). -/
def State.setStack (s : State) (l : List Word) : State := { s with stack := l }

/-- Memory replaced (R32). -/
def State.setMem (s : State) (m : Memory) : State := { s with mem := m }

/-- The screen replaced (R33). -/
def State.setScreen (s : State) (sc : Screen) : State := { s with screen := sc }

/-- The keypad replaced (R34). -/
def State.setKeys (s : State) (k : Vector Bool 16) : State := { s with keys := k }

/-- The `fault` element replaced (R38). -/
def State.setFault (s : State) (f : Option Fatal) : State := { s with fault := f }

/-- Notifications appended to the event log, in order (R39). -/
def State.emit (s : State) (es : List Event) : State := { s with events := s.events ++ es }

/-- One more random byte drawn (R162). -/
def State.countDraw (s : State) : State := { s with draws := s.draws + 1 }

/-- The host operations still to come replaced. -/
def State.setSchedule (s : State) (l : List HostOp) : State := { s with schedule := l }

/-- `PC <- PC + 2 (mod 2^16)` (R25, R26). -/
def State.advance (s : State) : State := s.setPc (s.pc + 2)

/-- One byte of memory (R54). -/
def State.readByte (s : State) (a : Nat) : Byte := memRead s.cfg.font s.mem a

/-- `MemRead(a, n)` (R12). -/
def State.readBytes (s : State) (a n : Nat) : List Byte := memReadList s.cfg.font s.mem a n

/-- `MemWrite(a, n, v)` (R12), where n is the number of bytes given. -/
def State.writeBytes (s : State) (a : Nat) (bs : List Byte) : State :=
  s.setMem (memWriteList s.cfg.font s.mem a bs)

/-- Is key `k` down (R34). -/
def State.keyDown (s : State) (k : Reg) : Bool := s.keys[k.val]

/-- The value of the random byte this execution draws (R13). -/
def State.drawRandom (s : State) : Byte := Config.randomByte s.draws

/-- Does the stack hold STACK_DEPTH entries (R31). The depth is positive (R8(a)), so an empty stack never does. -/
def stackFull (depth : StackDepth) (stack : List Word) : Bool :=
  match stack with
  | [] => false
  | w :: ws =>
    match depth with
    | .unbounded => false
    | .bounded limit _ => decide ((w :: ws).length = limit)

/-- TAKING A FATAL CONDITION, `raise F(info)` (R13, R242): the one state change is `fault <- some(F, info)`. Nothing is
saved, no mode changes, control goes nowhere, and PC still addresses the faulting instruction (R243, R246). -/
def State.raise (s : State) (f : Fatal) : Result := .next (s.setFault (some f))

/-- `Reset()` (R280), THE ONLY WAY OUT OF A FATAL CONDITION (R246): every element at its reset value, ScreenReset
appended to the log. The model's own fields stay: the parameters are fixed, the count of draws goes on so that every
draw is fresh, and the host's further operations still come. -/
def State.hostReset (s : State) : State where
  v := Vector.replicate 16 0
  i := 0x0000
  pc := 0x0200
  dt := 0x00
  st := 0x00
  stack := []
  mem := []
  screen := blankScreen
  keys := Vector.replicate 16 false
  fault := none
  events := s.events ++ [.screenReset]
  cfg := s.cfg
  draws := s.draws
  schedule := s.schedule

/-- The cause code of a fatal condition (R241). -/
def fatalCode : Fatal → Nat
  | .decodeError _ _ => 1
  | .stackUnderflow _ => 2
  | .stackOverflow _ => 3
  | .fetchOutOfRange _ => 4
  | .dataOutOfRange _ _ => 5
  | .keyIndexOutOfRange _ _ => 6

/-- The PC that every fatal condition records (R241, R243). -/
def fatalPc : Fatal → Word
  | .decodeError pc _ => pc
  | .stackUnderflow pc => pc
  | .stackOverflow pc => pc
  | .fetchOutOfRange pc => pc
  | .dataOutOfRange pc _ => pc
  | .keyIndexOutOfRange pc _ => pc

end Sys2Proof.Machine
end

