-- ==== Sys2Proof/Machine/Flags.lean ====
section
/-! DEFINITION. Every computation of the flag VF (R22, R24, R150) and the shared shape of the instructions that write a
result and then VF. -/

namespace Sys2Proof.Machine

/-- VF's register number. -/
def vF : Reg := 15

/-- The value a flag writes: 1 when its condition holds, else 0 (R150). -/
def flagByte (c : Bool) : Byte := if c then 1 else 0

/-- 8XY4: the exact sum exceeds 255 (R157). -/
def carryOut (a b : Byte) : Bool := decide (a.toNat + b.toNat > 255)

/-- 8XY5: a > b, strictly (R158, C11); 8XY7 has the operands exchanged (R160). -/
def strictlyAbove (a b : Byte) : Bool := decide (a.toNat > b.toNat)

/-- 8XY6: bit 0 of the old VX (R159). -/
def lowBit (a : Byte) : Bool := a.getLsbD 0

/-- 8XYE: bit 7 of the old VX (R161). -/
def highBit (a : Byte) : Bool := a.getLsbD 7

/-- FX1E: the new I exceeds 0x0FFF (R182, D8). -/
def indexAbove (i : Word) : Bool := decide (i.toNat > 0x0FFF)

/-- VX first, then VF, so that VF holds the flag when X = 0xF (R24). -/
def State.setResultFlag (s : State) (x : Reg) (r : Byte) (c : Bool) : State :=
  (s.setV x r).setV vF (flagByte c)

end Sys2Proof.Machine
end

