-- ==== Sys2Proof/Machine/Alu.lean ====
section
/-! DEFINITION. Register loads and arithmetic: 6XNN, 7XNN, 8XY0 to 8XY7, 8XYE, CXNN (R150 to R162). -/

namespace Sys2Proof.Machine

/-- Write one register and go on (R26). -/
def writeReg (x : Reg) (r : Byte) (s : State) : Result := .next (s.setV x r).advance

/-- Write VX, then VF, and go on (R24, R26). -/
def writeRegFlag (x : Reg) (r : Byte) (c : Bool) (s : State) : Result := .next (s.setResultFlag x r c).advance

/-- 6XNN (R151). -/
def execLdImm (x : Reg) (nn : Byte) (s : State) : Result := writeReg x nn s

/-- 7XNN (R152): the sum mod 256, no flag. -/
def execAddImm (x : Reg) (nn : Byte) (s : State) : Result := writeReg x (s.getV x + nn) s

/-- 8XY0 (R153). -/
def execLdReg (x y : Reg) (s : State) : Result := writeReg x (s.getV y) s

/-- 8XY1 (R154). -/
def execOrReg (x y : Reg) (s : State) : Result := writeReg x (s.getV x ||| s.getV y) s

/-- 8XY2 (R155). -/
def execAndReg (x y : Reg) (s : State) : Result := writeReg x (s.getV x &&& s.getV y) s

/-- 8XY3 (R156). -/
def execXorReg (x y : Reg) (s : State) : Result := writeReg x (s.getV x ^^^ s.getV y) s

/-- 8XY4 (R157). -/
def execAddReg (x y : Reg) (s : State) : Result :=
  writeRegFlag x (s.getV x + s.getV y) (carryOut (s.getV x) (s.getV y)) s

/-- 8XY5 (R158). -/
def execSubReg (x y : Reg) (s : State) : Result :=
  writeRegFlag x (s.getV x - s.getV y) (strictlyAbove (s.getV x) (s.getV y)) s

/-- 8XY6 (R159): VX is shifted, VY is neither read nor written. -/
def execShrReg (x : Reg) (s : State) : Result := writeRegFlag x (s.getV x >>> 1) (lowBit (s.getV x)) s

/-- 8XY7 (R160). -/
def execSubnReg (x y : Reg) (s : State) : Result :=
  writeRegFlag x (s.getV y - s.getV x) (strictlyAbove (s.getV y) (s.getV x)) s

/-- 8XYE (R161): VX is shifted, VY is neither read nor written. -/
def execShlReg (x : Reg) (s : State) : Result := writeRegFlag x (s.getV x <<< 1) (highBit (s.getV x)) s

/-- CXNN (R162): a fresh draw ANDed with NN. -/
def execRnd (x : Reg) (nn : Byte) (s : State) : Result := writeReg x (s.drawRandom &&& nn) s.countDraw

end Sys2Proof.Machine
end

