-- ==== Sys2Proof/Machine/Operands.lean ====
section
/-! DEFINITION. The operand forms: the address operand, memory through I with its range check, the key operand, and the
skip that a condition selects. -/

namespace Sys2Proof.Machine

/-- The address operand NNN, zero-extended to 16 bits (R85). -/
def addrOperand (nnn : Addr12) : Word := nnn.setWidth 16

/-- The effective address of byte `k` of a transfer: the exact sum `I + k` (R180). -/
def dataAddr (s : State) (k : Nat) : Nat := s.i.toNat + k

/-- Is a transfer of `n` bytes from I in range: I ≤ 0xFFF and every address of I .. I+n−1 ≤ 0xFFF (R56, R180, and R203
for n = 0). -/
def dataInRange (s : State) (n : Nat) : Bool :=
  decide (s.i.toNat < memSize) && decide (dataAddr s n ≤ memSize)

/-- The lowest offending address of a transfer that is out of range, `max(I, 0x1000)` (R180). -/
def lowestOffending (s : State) : Nat := max s.i.toNat memSize

/-- The instruction's effect when its `n` bytes from I are in range, and DataOutOfRange otherwise (R56). -/
def withDataRange (n : Nat) (s : State) (effect : State) : Result :=
  if dataInRange s n then .next effect else s.raise (.dataOutOfRange s.pc (lowestOffending s))

/-- A skip: PC + 4 when its condition holds, else PC + 2 (R130). -/
def skipWhen (c : Bool) (s : State) : State := s.setPc (if c then s.pc + 4 else s.pc + 2)

/-- The key that a register's value names, if it names one (R85, R135). -/
def keyOperand (b : Byte) : Option Reg :=
  if h : b.toNat < 16 then some ⟨b.toNat, h⟩ else none

/-- A skip on the key that V[x] names: KeyIndexOutOfRange when it names none (R135, R136). -/
def skipOnKey (x : Reg) (wanted : Bool) (s : State) : Result :=
  match keyOperand (s.getV x) with
  | none => s.raise (.keyIndexOutOfRange s.pc (s.getV x))
  | some k => .next (skipWhen (s.keyDown k == wanted) s)

/-- The keys in rising order. -/
def allKeys : List Reg := [0, 1, 2, 3, 4, 5, 6, 7, 8, 9, 10, 11, 12, 13, 14, 15]

/-- `firstPressed()`: the lowest key that is down (R223). -/
def firstPressed (s : State) : Option Reg := allKeys.find? fun k => s.keyDown k

/-- The values of V0 .. Vx in order (R185). -/
def regValues (s : State) (x : Reg) : List Byte := (allKeys.take (x.val + 1)).map s.getV

/-- Write the listed registers with the bytes given, in order (R186). -/
def loadRegsFrom (s : State) : List Reg → List Byte → State
  | r :: rs, b :: bs => loadRegsFrom (s.setV r b) rs bs
  | _, _ => s

/-- I after FX55 or FX65: advanced by x + 1 when LS_INCREMENTS_I (R27, R185). -/
def indexAfterTransfer (s : State) (x : Reg) : Word :=
  if s.cfg.lsIncrementsI then s.i + BitVec.ofNat 16 (x.val + 1) else s.i

/-- The hundreds, tens and units digits of a byte (R184). -/
def bcdDigits (b : Byte) : List Byte :=
  [BitVec.ofNat 8 (b.toNat / 100), BitVec.ofNat 8 (b.toNat / 10 % 10), BitVec.ofNat 8 (b.toNat % 10)]

end Sys2Proof.Machine
end

