-- ==== Sys2Proof/Machine/Draw.lean ====
section
/-! DEFINITION. Sprite draw: DXYN (R200 to R204). -/

namespace Sys2Proof.Machine

/-- DXYN (R203): the coordinates are read before VF is written. -/
def execDrw (x y : Reg) (n : Nat) (s : State) : Result :=
  let d := screenDraw s.screen (s.getV x) (s.getV y) (s.readBytes (dataAddr s 0) n)
  withDataRange n s (((s.setScreen d.screen).emit d.events).setV vF (flagByte d.collision)).advance

end Sys2Proof.Machine
end

