-- ==== Sys2Proof/Machine/Flow.lean ====
section
/-! DEFINITION. Screen clear and control transfer: 00E0, 00EE, 1NNN, 2NNN, BNNN (R110 to R115). -/

namespace Sys2Proof.Machine

/-- 00E0 (R111). -/
def execCls (s : State) : Result := .next ((s.setScreen blankScreen).emit [.screenReset]).advance

/-- 00EE (R112). -/
def execRet (s : State) : Result :=
  match s.stack with
  | [] => s.raise (.stackUnderflow s.pc)
  | top :: below => .next ((s.setStack below).setPc top)

/-- 1NNN (R113). -/
def execJp (nnn : Addr12) (s : State) : Result := .next (s.setPc (addrOperand nnn))

/-- 2NNN (R114). -/
def execCall (nnn : Addr12) (s : State) : Result :=
  if stackFull s.cfg.stackDepth s.stack then s.raise (.stackOverflow s.pc)
  else .next ((s.setStack ((s.pc + 2) :: s.stack)).setPc (addrOperand nnn))

/-- BNNN (R115): the exact sum, which 16 bits hold. -/
def execJpV0 (nnn : Addr12) (s : State) : Result :=
  .next (s.setPc (addrOperand nnn + (s.getV 0).setWidth 16))

end Sys2Proof.Machine
end

