-- ==== Sys2Proof/Machine/IndexMem.lean ====
section
/-! DEFINITION. Index register and memory transfer: ANNN, FX1E, FX29, FX33, FX55, FX65 (R180 to R186). -/

namespace Sys2Proof.Machine

/-- ANNN (R181). -/
def execLdI (nnn : Addr12) (s : State) : Result := .next (s.setI (addrOperand nnn)).advance

/-- FX1E (R182): I first, then VF from the new I (D8). -/
def execAddI (x : Reg) (s : State) : Result :=
  let i := s.i + (s.getV x).setWidth 16
  .next ((s.setI i).setV vF (flagByte (indexAbove i))).advance

/-- FX29 (R183): V[x] is not masked. -/
def execLdFont (x : Reg) (s : State) : Result := .next (s.setI (5 * (s.getV x).setWidth 16)).advance

/-- FX33 (R184). -/
def execBcd (x : Reg) (s : State) : Result :=
  withDataRange 3 s (s.writeBytes (dataAddr s 0) (bcdDigits (s.getV x))).advance

/-- FX55 (R185). -/
def execStoreRegs (x : Reg) (s : State) : Result :=
  withDataRange (x.val + 1) s
    ((s.writeBytes (dataAddr s 0) (regValues s x)).setI (indexAfterTransfer s x)).advance

/-- FX65 (R186). -/
def execLoadRegs (x : Reg) (s : State) : Result :=
  withDataRange (x.val + 1) s
    ((loadRegsFrom s allKeys (s.readBytes (dataAddr s 0) (x.val + 1))).setI (indexAfterTransfer s x)).advance

end Sys2Proof.Machine
end

