-- ==== Sys2Proof/Machine/Skip.lean ====
section
/-! DEFINITION. Conditional skips: 3XNN, 4XNN, 5XY0, 9XY0, EX9E, EXA1 (R130 to R136). -/

namespace Sys2Proof.Machine

/-- 3XNN (R131). -/
def execSeImm (x : Reg) (nn : Byte) (s : State) : Result := .next (skipWhen (s.getV x == nn) s)

/-- 4XNN (R132). -/
def execSneImm (x : Reg) (nn : Byte) (s : State) : Result := .next (skipWhen (s.getV x != nn) s)

/-- 5XY0 (R133). -/
def execSeReg (x y : Reg) (s : State) : Result := .next (skipWhen (s.getV x == s.getV y) s)

/-- 9XY0 (R134). -/
def execSneReg (x y : Reg) (s : State) : Result := .next (skipWhen (s.getV x != s.getV y) s)

/-- EX9E (R135). -/
def execSkp (x : Reg) (s : State) : Result := skipOnKey x true s

/-- EXA1 (R136). -/
def execSknp (x : Reg) (s : State) : Result := skipOnKey x false s

end Sys2Proof.Machine
end

