-- ==== Sys2Proof/Machine/TimerKey.lean ====
section
/-! DEFINITION. Timer access and key wait: FX07, FX15, FX18, FX0A (R220 to R223). -/

namespace Sys2Proof.Machine

/-- FX07 (R220). -/
def execLdDT (x : Reg) (s : State) : Result := .next (s.setV x s.dt).advance

/-- FX15 (R221). -/
def execSetDT (x : Reg) (s : State) : Result := .next (s.setDT (s.getV x)).advance

/-- FX18 (R222): it emits nothing itself. -/
def execSetST (x : Reg) (s : State) : Result := .next (s.setST (s.getV x)).advance

/-- FX0A (R223): the lowest key that is down; with none down nothing changes and PC still addresses this FX0A. -/
def execWaitKey (x : Reg) (s : State) : Result :=
  match firstPressed s with
  | some k => .next (s.setV x (BitVec.ofNat 8 k.val)).advance
  | none => .next s

end Sys2Proof.Machine
end

