-- ==== Sys2Proof/Machine/Next.lean ====
section
/-! DEFINITION. The host operation Next: fetch, decode, execute (R60, R81, R245). -/

namespace Sys2Proof.Machine

/-- Is the fetch in range: PC ≤ 0x0FFE (R60). -/
def fetchInRange (s : State) : Bool := decide (s.pc.toNat ≤ 0x0FFE)

/-- The two bytes at PC, in memory order (R60). -/
def fetchBytes (s : State) : List Byte := s.readBytes s.pc.toNat 2

/-- The instruction word at PC, big-endian (R58, R60). -/
def fetchWord (s : State) : Word := wordOfBytes (s.readByte s.pc.toNat) (s.readByte (s.pc.toNat + 1))

/-- Decode the fetched bytes and execute them (R81); an illegal word raises DecodeError. -/
def decodeExecute (s : State) : Result :=
  match decode (fetchBytes s) with
  | .ok (i, _) => exec i s
  | .error _ => s.raise (.decodeError s.pc (fetchWord s))

/-- The checks of a running CORE in their order: the fetch range, decode, then the instruction's own (R245). -/
def fetchExecute (s : State) : Result :=
  if fetchInRange s then decodeExecute s else s.raise (.fetchOutOfRange s.pc)

/-- `Next()` (R81): a faulted CORE has no step (R38, R244). -/
def next (s : State) : Result :=
  match s.fault with
  | some f => .fault (.halted f)
  | none => fetchExecute s

end Sys2Proof.Machine
end

