-- ==== Sys2Proof/Machine/HostOps.lean ====
section
/-! DEFINITION. The other host operations (R15): Load, Ticker, KeyDown, KeyUp, and what each operation of a schedule
does. Reset stands in Machine/Ops.lean. -/

namespace Sys2Proof.Machine

/-- What Load returns to the host (R284). -/
inductive LoadResult where
  | ok
  | loadOutOfBounds
  deriving DecidableEq, Repr

/-- ROM_BASE (R7). -/
def romBase : Nat := 0x200

/-- `Load(bytes, S)` (R284): the size is checked before any write. -/
def State.hostLoad (s : State) (bytes : List Byte) : State × LoadResult :=
  if romBase + bytes.length > memSize then (s, .loadOutOfBounds)
  else (s.writeBytes romBase bytes, .ok)

/-- A timer's countdown: by 1 when above 0, floor 0 (R29, R30). -/
def countDown (b : Byte) : Byte := if b = 0 then 0 else b - 1

/-- What Ticker emits: PlayTone when it finds ST equal to exactly 1 (R250). -/
def tickerEvents (s : State) : List Event := if s.st = 1 then [.playTone] else []

/-- `Ticker()` (R250). -/
def State.hostTicker (s : State) : State :=
  ((s.setDT (countDown s.dt)).emit (tickerEvents s)).setST (countDown s.st)

/-- KeyDown and KeyUp: an index above 15 changes nothing (R260, R261). -/
def State.hostKey (s : State) (idx : Nat) (down : Bool) : State :=
  if h : idx < 16 then s.setKeys (s.keys.set idx down) else s

/-- What one host operation does. Load's result goes to the host and is no state. -/
def hostStep (op : HostOp) (s : State) : Result :=
  match op with
  | .next => next s
  | .reset => .next s.hostReset
  | .load bytes => .next (s.hostLoad bytes).1
  | .ticker => .next s.hostTicker
  | .keyDown idx => .next (s.hostKey idx true)
  | .keyUp idx => .next (s.hostKey idx false)

/-- The state from which the next step runs the instruction word `w`: the word stored high byte first at PC (R58), Next
the host's next operation, the CORE running, and PC fetchable. A PC that is not fetchable goes to the reset entry. -/
def placeWord (s : State) (w : Word) : State :=
  let pc : Word := if fetchInRange s then s.pc else 0x0200
  (((s.setPc pc).setFault none).setSchedule (.next :: s.schedule)).writeBytes pc.toNat (bytesOfWord w)

end Sys2Proof.Machine
end

