-- ==== Sys2Proof/Machine/Step.lean ====
section
/-! DEFINITION. One step of the machine: the host operation that comes next (R63, R292). -/

namespace Sys2Proof.Machine

/-- One host operation: the first of the schedule, which the step uses up, and Next when none is listed. -/
def step (s : State) : Host.Outcome State Fault Refusal :=
  match s.schedule with
  | [] => hostStep .next s
  | op :: rest => hostStep op (s.setSchedule rest)

/-- `s` with the instruction whose bits are `w`, numbered as spec/opcode_table.json numbers them, stored where `step`
fetches next. -/
def State.withFetchWord (s : State) (nbits w : Nat) : State := placeWord s (BitVec.ofNat 16 (w % 2 ^ nbits))

end Sys2Proof.Machine
end

