-- ==== Sys2Proof/Safety.lean ====
section
/-! DEFINITION. What counts as a safe run: the running, faulted, stopped and waiting states of R295, the launch state of
R288, the states a run reaches, and the invariant that every step keeps. -/

namespace Sys2Proof.Machine

/-- No fatal condition is recorded (R38). -/
def Running (s : State) : Prop := s.fault = none

/-- A faulted state is never a successful end (R244, R295). -/
def Faulted (s : State) : Prop := s.fault ≠ none

/-- *Stopped* (R295): running, and the word at PC is 1NNN with NNN = PC. -/
def Stopped (s : State) : Prop :=
  Running s ∧ s.pc.toNat ≤ 0x0FFE ∧ ∃ nnn : Addr12, nnn.toNat = s.pc.toNat ∧ decodeWord (fetchWord s) = .ok (.jp nnn)

/-- *Waiting* (R295): running, and the word at PC is FX0A with no key down. -/
def Waiting (s : State) : Prop :=
  Running s ∧ s.pc.toNat ≤ 0x0FFE ∧ (∀ k, s.keyDown k = false) ∧
    ∃ x : Reg, decodeWord (fetchWord s) = .ok (.waitKey x)

/-- The launch of a program ROM: Reset, then Load (R287, R288). -/
def launch (s : State) (rom : List Byte) : State × LoadResult := s.hostReset.hostLoad rom

/-- The states a run reaches: from the launch of some ROM that fits, under any schedule of host operations (R288, R292). -/
inductive Reachable : State → Prop
  | launched (s : State) (rom : List Byte) (ops : List HostOp) (fits : rom.length ≤ 3584) :
      Reachable ((launch s rom).1.setSchedule ops)
  | stepped {s t : State} (before : Reachable s) (one : step s = .next t) : Reachable t

/-- The stack holds at most STACK_DEPTH entries (R20, R31). -/
def stackWithin (depth : StackDepth) (stack : List Word) : Prop :=
  match depth with
  | .unbounded => True
  | .bounded limit _ => stack.length ≤ limit

/-- A recorded fatal condition tells the truth about the state that holds it (R241, R243). -/
def faultTruthful (s : State) : Fatal → Prop
  | .decodeError pc w => pc = s.pc ∧ ∃ r, decodeWord w = .error r
  | .stackUnderflow pc => pc = s.pc ∧ s.stack = []
  | .stackOverflow pc => pc = s.pc ∧ stackFull s.cfg.stackDepth s.stack = true
  | .fetchOutOfRange pc => pc = s.pc ∧ 0x0FFE < s.pc.toNat
  | .dataOutOfRange pc a => pc = s.pc ∧ a = max s.i.toNat 0x1000
  | .keyIndexOutOfRange pc k => pc = s.pc ∧ 0x0F < k.toNat ∧ ∃ x, s.getV x = k

/-- The invariant of the machine. -/
structure Inv (s : State) : Prop where
  /-- Memory is in its canonical form. -/
  memory : s.mem.wf s.cfg.font = true
  /-- The largest PC any instruction sets is BNNN's 0x10FE (R115). -/
  pc : s.pc.toNat ≤ 0x10FE
  /-- Every return address is that of the word after a call, so it never wrapped (R114). -/
  returns : ∀ w ∈ s.stack, 2 ≤ w.toNat ∧ w.toNat ≤ 0x1000
  /-- The stack stays within its depth (R20). -/
  depth : stackWithin s.cfg.stackDepth s.stack
  /-- A recorded fault is true of the state. -/
  fault : ∀ f, s.fault = some f → faultTruthful s f

end Sys2Proof.Machine
end

