-- ==== Sys2Proof/Certificates/Slice0/Obligations.lean ====
section
/-! DEFINITION. The statements for the provers. Each result statement has as its conclusion that `exec` answers a next
state; the state it answers is written as a record update of the state before, or tied to it field by field, so that
everything not named in it is unchanged: it is the frame too. -/

namespace Sys2Proof.Claims

open Sys2Proof.Machine

/-- The pixels that DXYN applies a 1-bit to, in row order and most significant bit first (R200): for each row byte at
I + j, each bit i whose value is 1, at column (VX + i) mod 64 and row (VY + j) mod 32 (R202). -/
def spriteCells (s : State) (x y : Reg) (n : Nat) : List Pixel :=
  (List.range n).flatMap fun j =>
    ((List.range 8).filter fun i => (s.readByte (dataAddr s j)).getLsbD (7 - i)).map fun i =>
      (Fin.ofNat 64 ((s.getV x).toNat + i), Fin.ofNat 32 ((s.getV y).toNat + j))

/-- The instruction's own check of R245 passes; an instruction with no check always passes. -/
def ownCheckPasses (s : State) : Instr → Prop
  | .ret => s.stack ≠ []
  | .call _ => ∀ limit positive, s.cfg.stackDepth = .bounded limit positive → s.stack.length ≠ limit
  | .skp x => (s.getV x).toNat ≤ 0x0F
  | .sknp x => (s.getV x).toNat ≤ 0x0F
  | .drw _ _ n => s.i.toNat ≤ 0xFFF ∧ s.i.toNat + n ≤ 0x1000
  | .bcd _ => s.i.toNat + 2 ≤ 0xFFF
  | .storeRegs x => s.i.toNat + x.val ≤ 0xFFF
  | .loadRegs x => s.i.toNat + x.val ≤ 0xFFF
  | _ => True

/-- The registers an instruction may write: the destination of its rule, VF for those of R24's table, V0 to VX for FX65. -/
def mayWriteReg : Instr → Reg → Prop
  | .ldImm x _, r | .addImm x _, r | .ldReg x _, r | .orReg x _, r | .andReg x _, r | .xorReg x _, r
  | .rnd x _, r | .ldDT x, r | .waitKey x, r => r = x
  | .addReg x _, r | .subReg x _, r | .shrReg x _, r | .subnReg x _, r | .shlReg x _, r => r = x ∨ r = 0xF
  | .drw _ _ _, r | .addI _, r => r = 0xF
  | .loadRegs x, r => r ≤ x
  | _, _ => False

/-- The addresses an instruction stores to: three from I for FX33, X + 1 from I for FX55 (R55). -/
def storesTo (s : State) : Instr → Nat → Prop
  | .bcd _, a => dataAddr s 0 ≤ a ∧ a ≤ dataAddr s 2
  | .storeRegs x, a => dataAddr s 0 ≤ a ∧ a ≤ dataAddr s x.val
  | _, _ => False

/-- What an outcome's next state is, changed by a function; a stop stays as it is. -/
def onNext (f : State → State) : Result → Result
  | .next t => .next (f t)
  | .fault r => .fault r
  | .refused r => .refused r

/-- What one host operation that reaches only the keypad leaves of key `k` (R260, R261). -/
def keyAfter (k : Reg) (down : Bool) : HostOp → Bool
  | .keyDown idx => if idx = k.val then true else down
  | .keyUp idx => if idx = k.val then false else down
  | _ => down

/-- A key event. -/
def isKeyEvent : HostOp → Bool
  | .keyDown _ => true
  | .keyUp _ => true
  | _ => false

end Sys2Proof.Claims

open Sys2Proof Sys2Proof.Machine Sys2Proof.Claims

/-! ### Reset, fetch and decode -/

/-- R40, for the reset state of every choice of the parameters, FONT among them (D3). The `fault` and `events` rows of R40
are the spec's own decisions (D4, D28), and that nothing precedes the ScreenReset in the log is the model's choice
(notes/assumptions/7.md), so the statement says of the log only that it ends in it. -/
def Obligations.ResetStateHoldsTheStatedValues : Prop :=
  State.reset = State.resetWith defaultConfig ∧
  ∀ cfg : Config, ∃ t, State.resetWith cfg = t ∧ t.cfg = cfg ∧
    (∀ r, t.getV r = 0x00) ∧ t.i = 0x0000 ∧ t.pc = 0x0200 ∧ t.dt = 0x00 ∧ t.st = 0x00 ∧ t.stack = [] ∧
    (∀ a, (h : a < 80) → t.readByte a = cfg.font[a]) ∧
    (∀ a, 0x050 ≤ a → a ≤ 0xFFF → t.readByte a = 0x00) ∧
    (∀ p, getPixel t.screen p = false) ∧ (∀ k, t.keyDown k = false) ∧
    t.fault = none ∧ t.events.getLast? = some .screenReset

/-- R280 and R40, from every state, a faulted one included: every element at its reset value, exactly one ScreenReset
appended, earlier entries kept; FONT is a parameter (D3), and that there is a `fault` element and a log are the spec's own
decisions (D4, D28). That the parameters and the model's own fields stay is the model's choice (notes/assumptions/10.md). -/
def Obligations.ResetOperationFromEveryState : Prop :=
  ∀ s : State, ∃ t, hostStep .reset s = .next t ∧
    (∀ r, t.getV r = 0x00) ∧ t.i = 0x0000 ∧ t.pc = 0x0200 ∧ t.dt = 0x00 ∧ t.st = 0x00 ∧ t.stack = [] ∧
    (∀ a, (h : a < 80) → t.readByte a = s.cfg.font[a]) ∧
    (∀ a, 0x050 ≤ a → a ≤ 0xFFF → t.readByte a = 0x00) ∧
    (∀ p, getPixel t.screen p = false) ∧ (∀ k, t.keyDown k = false) ∧ t.fault = none ∧
    t.events = s.events ++ [.screenReset] ∧ t.cfg = s.cfg ∧ t.draws = s.draws ∧ t.schedule = s.schedule

/-- A step runs the decoded instruction (R81): with the CORE running and PC fetchable, when the two bytes at PC, high
byte first, decode to `i`, a step that is a Next is `exec i`. That a step is a Next when no host operation is listed, and
that a listed Next is used up, is the model's choice (notes/assumptions/6.md); nothing else is added around `exec`. -/
def Obligations.StepRunsTheDecodedInstruction : Prop :=
  ∀ (s : State) (i : Instr), s.fault = none → s.pc.toNat ≤ 0x0FFE →
    decode [s.readByte s.pc.toNat, s.readByte (s.pc.toNat + 1)] = .ok (i, []) →
    (s.schedule = [] → step s = exec i s) ∧
    (∀ ops, s.schedule = .next :: ops → step s = exec i { s with schedule := ops })

/-- R81 with R60: what one Next does. What a fatal condition is, which fetches are in range and that the checks come in this
order (R245) are the spec's own decisions D4, D5, D6 and D27; that a step with no host operation listed is a Next is the
model's choice (notes/assumptions/6.md). -/
def Obligations.NextMakesItsChecksInOrder : Prop :=
  ∀ s : State, s.schedule = [] →
    (∀ f, s.fault = some f → step s = .fault (.halted f)) ∧
    (s.fault = none →
      (0x0FFE < s.pc.toNat → step s = .next { s with fault := some (.fetchOutOfRange s.pc) }) ∧
      (s.pc.toNat ≤ 0x0FFE → ∀ w : Word, w = s.readByte s.pc.toNat ++ s.readByte (s.pc.toNat + 1) →
        (∀ r, decodeWord w = .error r → step s = .next { s with fault := some (.decodeError s.pc w) }) ∧
        (∀ i, decodeWord w = .ok i → step s = exec i s)))

/-- R87 to R92: what each family decodes to. Fields are those of R83, NNN the low twelve bits (R84, the spec's own decision
D2); the illegal words of families 0 and 5 are its decisions D11 and D12. -/
def Obligations.DecodeFollowsTheFamilyTable : Prop :=
  ∀ w : Word,
    let op := w.extractLsb' 12 4
    let x : Reg := (w.extractLsb' 8 4).toFin
    let y : Reg := (w.extractLsb' 4 4).toFin
    let n := w.extractLsb' 0 4
    let nn := w.extractLsb' 0 8
    let nnn := w.extractLsb' 0 12
    (w = 0x00E0#16 → decodeWord w = .ok .cls) ∧
    (w = 0x00EE#16 → decodeWord w = .ok .ret) ∧
    (op = 0x0#4 → w ≠ 0x00E0#16 → w ≠ 0x00EE#16 → decodeWord w = .error .system) ∧
    (op = 0x1#4 → decodeWord w = .ok (.jp nnn)) ∧
    (op = 0x2#4 → decodeWord w = .ok (.call nnn)) ∧
    (op = 0x3#4 → decodeWord w = .ok (.seImm x nn)) ∧
    (op = 0x4#4 → decodeWord w = .ok (.sneImm x nn)) ∧
    (op = 0x5#4 → decodeWord w = if n = 0x0#4 then .ok (.seReg x y) else .error .skipSelector) ∧
    (op = 0x6#4 → decodeWord w = .ok (.ldImm x nn)) ∧
    (op = 0x7#4 → decodeWord w = .ok (.addImm x nn)) ∧
    (op = 0x8#4 →
      (n = 0x0#4 → decodeWord w = .ok (.ldReg x y)) ∧ (n = 0x1#4 → decodeWord w = .ok (.orReg x y)) ∧
      (n = 0x2#4 → decodeWord w = .ok (.andReg x y)) ∧ (n = 0x3#4 → decodeWord w = .ok (.xorReg x y)) ∧
      (n = 0x4#4 → decodeWord w = .ok (.addReg x y)) ∧ (n = 0x5#4 → decodeWord w = .ok (.subReg x y)) ∧
      (n = 0x6#4 → decodeWord w = .ok (.shrReg x y)) ∧ (n = 0x7#4 → decodeWord w = .ok (.subnReg x y)) ∧
      (n = 0xE#4 → decodeWord w = .ok (.shlReg x y)) ∧
      (n ∈ [0x8#4, 0x9#4, 0xA#4, 0xB#4, 0xC#4, 0xD#4, 0xF#4] → decodeWord w = .error .aluSelector)) ∧
    (op = 0x9#4 → decodeWord w = if n = 0x0#4 then .ok (.sneReg x y) else .error .skipSelector) ∧
    (op = 0xA#4 → decodeWord w = .ok (.ldI nnn)) ∧
    (op = 0xB#4 → decodeWord w = .ok (.jpV0 nnn)) ∧
    (op = 0xC#4 → decodeWord w = .ok (.rnd x nn)) ∧
    (op = 0xD#4 → decodeWord w = .ok (.drw x y n.toNat)) ∧
    (op = 0xE#4 →
      (nn = 0x9E#8 → decodeWord w = .ok (.skp x)) ∧ (nn = 0xA1#8 → decodeWord w = .ok (.sknp x)) ∧
      (nn ∉ [0x9E#8, 0xA1#8] → decodeWord w = .error .keySelector)) ∧
    (op = 0xF#4 →
      (nn = 0x07#8 → decodeWord w = .ok (.ldDT x)) ∧ (nn = 0x0A#8 → decodeWord w = .ok (.waitKey x)) ∧
      (nn = 0x15#8 → decodeWord w = .ok (.setDT x)) ∧ (nn = 0x18#8 → decodeWord w = .ok (.setST x)) ∧
      (nn = 0x1E#8 → decodeWord w = .ok (.addI x)) ∧ (nn = 0x29#8 → decodeWord w = .ok (.ldFont x)) ∧
      (nn = 0x33#8 → decodeWord w = .ok (.bcd x)) ∧ (nn = 0x55#8 → decodeWord w = .ok (.storeRegs x)) ∧
      (nn = 0x65#8 → decodeWord w = .ok (.loadRegs x)) ∧
      (nn ∉ [0x07#8, 0x0A#8, 0x15#8, 0x18#8, 0x1E#8, 0x29#8, 0x33#8, 0x55#8, 0x65#8] →
        decodeWord w = .error .miscSelector))

/-- The illegal encodings are exactly those of R93's condition column, which the spec derives from R87 to R92 (D11 and D12
are its own decisions for families 0 and 5). -/
def Obligations.IllegalWordsAreExactlyTheTables : Prop :=
  ∀ w : Word, (∃ r, decodeWord w = .error r) ↔
    (w.toNat ≤ 0x0FFF ∧ w.toNat ≠ 0x00E0 ∧ w.toNat ≠ 0x00EE) ∨
    (w.toNat / 0x1000 = 0x5 ∧ w.toNat % 0x10 ≠ 0) ∨
    (w.toNat / 0x1000 = 0x8 ∧ 0x8 ≤ w.toNat % 0x10 ∧ w.toNat % 0x10 ≠ 0xE) ∨
    (w.toNat / 0x1000 = 0x9 ∧ w.toNat % 0x10 ≠ 0) ∨
    (w.toNat / 0x1000 = 0xE ∧ w.toNat % 0x100 ∉ [0x9E, 0xA1]) ∨
    (w.toNat / 0x1000 = 0xF ∧ w.toNat % 0x100 ∉ [0x07, 0x0A, 0x15, 0x18, 0x1E, 0x29, 0x33, 0x55, 0x65])

/-- Decoding the bytes of a well-formed instruction gives it back, with every operand at every value its field admits,
whatever bytes follow (R80, R86). -/
def Obligations.DecodeOfEncodeIsTheInstruction : Prop :=
  ∀ (i : Instr) (rest : List Byte), i.wellFormed = true → decode (encode i ++ rest) = .ok (i, rest)

/-- A word has one meaning: what decodes is well-formed and encodes to that very word, so no bit of it is dropped. -/
def Obligations.EncodeOfDecodeIsTheWord : Prop :=
  ∀ (w : Word) (i : Instr), decodeWord w = .ok i → i.wellFormed = true ∧ encodeWord i = w

/-- Words written out from the encodings of R86 to R92 decode to the instructions they stand for. -/
def Obligations.WrittenWordsDecodeRight : Prop :=
  decodeWord 0x00E0#16 = .ok .cls ∧ decodeWord 0x00EE#16 = .ok .ret ∧ decodeWord 0x1ABC#16 = .ok (.jp 0xABC#12) ∧
  decodeWord 0x3A5C#16 = .ok (.seImm 10 0x5C#8) ∧ decodeWord 0x8AB4#16 = .ok (.addReg 10 11) ∧
  decodeWord 0xCF37#16 = .ok (.rnd 15 0x37#8) ∧ decodeWord 0xD12F#16 = .ok (.drw 1 2 15) ∧
  decodeWord 0xE5A1#16 = .ok (.sknp 5) ∧ decodeWord 0xF90A#16 = .ok (.waitKey 9) ∧
  decodeWord 0xF355#16 = .ok (.storeRegs 3) ∧ decodeWord 0x901E#16 = .error .skipSelector

/-- The word that `withFetchWord` places is the one the next step runs, on a state that differs from the given one in
memory, in being unfaulted, and in PC where PC was not fetchable. How a program comes to stand in memory, and that a listed
Next is used up, is the model's choice (notes/assumptions/9.md and 6.md). -/
def Obligations.PlacedInstructionRunsNext : Prop :=
  ∀ (s : State) (i : Instr), i.wellFormed = true → s.mem.wf s.cfg.font = true →
    ∃ t, step (s.withFetchWord 16 (encodeWord i).toNat) = exec i t ∧
      t = { s with mem := t.mem, fault := none, pc := t.pc } ∧ (s.pc.toNat ≤ 0x0FFE → t.pc = s.pc) ∧
      ∀ a, a ≠ t.pc.toNat → a ≠ t.pc.toNat + 1 → t.readByte a = s.readByte a

/-! ### Screen clear and control transfer -/

/-- R111: every pixel clear, ScreenReset emitted even when they were, and nothing else but PC. What 00E0 emits is the spec's
own decision D10. -/
def Obligations.ClearScreenResult : Prop :=
  ∀ s : State, ∃ t, exec .cls s = .next t ∧
    t = { s with screen := t.screen, events := s.events ++ [.screenReset], pc := s.pc + 2 } ∧
    ∀ p, getPixel t.screen p = false

/-- R112: the popped value is used as it is; on an empty stack only `fault` changes, which is the
spec's own decisions D4 and D25. -/
def Obligations.ReturnResult : Prop :=
  ∀ s : State,
    (∀ top below, s.stack = top :: below → exec .ret s = .next { s with stack := below, pc := top }) ∧
    (s.stack = [] → exec .ret s = .next { s with fault := some (.stackUnderflow s.pc) })

/-- R113: a target is not checked. -/
def Obligations.JumpResult : Prop :=
  ∀ (s : State) (nnn : Addr12), exec (.jp nnn) s = .next { s with pc := nnn.setWidth 16 }

/-- R114: the address of the word after the call is pushed; on a full stack only `fault` changes; at every PC that Next
runs at, the pushed value has not wrapped. STACK_DEPTH is a parameter (D14), and what a full stack does rests on the spec's
own decisions D4 and D25. -/
def Obligations.CallResult : Prop :=
  ∀ (s : State) (nnn : Addr12),
    ((∀ limit positive, s.cfg.stackDepth = .bounded limit positive → s.stack.length ≠ limit) →
      exec (.call nnn) s = .next { s with stack := (s.pc + 2) :: s.stack, pc := nnn.setWidth 16 }) ∧
    (∀ limit positive, s.cfg.stackDepth = .bounded limit positive → s.stack.length = limit →
      exec (.call nnn) s = .next { s with fault := some (.stackOverflow s.pc) }) ∧
    (s.pc.toNat ≤ 0x0FFE → (s.pc + 2).toNat = s.pc.toNat + 2)

/-- R115: the exact sum of NNN and V0 (D6). -/
def Obligations.JumpWithOffsetResult : Prop :=
  ∀ (s : State) (nnn : Addr12), ∃ target : Word,
    exec (.jpV0 nnn) s = .next { s with pc := target } ∧ target.toNat = nnn.toNat + (s.getV 0).toNat

/-- R112 and R114 together: a return after a call, whatever ran between that left the stack as the call left it, comes
back to the word after the call and leaves the stack as it was before it. -/
def Obligations.ReturnUndoesCall : Prop :=
  ∀ (s t u : State) (nnn : Addr12), s.fault = none → exec (.call nnn) s = .next t → t.fault = none →
    u.stack = t.stack → exec .ret u = .next { u with stack := s.stack, pc := s.pc + 2 }

/-! ### Skips -/

/-- R131 and R132. -/
def Obligations.SkipOnImmediateResult : Prop :=
  ∀ (s : State) (x : Reg) (nn : Byte),
    exec (.seImm x nn) s = .next { s with pc := if s.getV x = nn then s.pc + 4 else s.pc + 2 } ∧
    exec (.sneImm x nn) s = .next { s with pc := if s.getV x ≠ nn then s.pc + 4 else s.pc + 2 }

/-- R133 and R134. -/
def Obligations.SkipOnRegistersResult : Prop :=
  ∀ (s : State) (x y : Reg),
    exec (.seReg x y) s = .next { s with pc := if s.getV x = s.getV y then s.pc + 4 else s.pc + 2 } ∧
    exec (.sneReg x y) s = .next { s with pc := if s.getV x ≠ s.getV y then s.pc + 4 else s.pc + 2 }

/-- R135 and R136: on the key that V[x] names, and KeyIndexOutOfRange when it names none, which is the spec's own
decision D16. -/
def Obligations.SkipOnKeyResult : Prop :=
  ∀ (s : State) (x : Reg),
    (∀ k : Reg, (s.getV x).toNat = k.val →
      exec (.skp x) s = .next { s with pc := if s.keyDown k = true then s.pc + 4 else s.pc + 2 } ∧
      exec (.sknp x) s = .next { s with pc := if s.keyDown k = false then s.pc + 4 else s.pc + 2 }) ∧
    (0x0F < (s.getV x).toNat →
      exec (.skp x) s = .next { s with fault := some (.keyIndexOutOfRange s.pc (s.getV x)) } ∧
      exec (.sknp x) s = .next { s with fault := some (.keyIndexOutOfRange s.pc (s.getV x)) })

/-! ### Register loads and arithmetic -/

/-- R151, R152 and R153: the destination takes the value, no flag is written, every other register is unchanged. -/
def Obligations.LoadAndAddImmediateResult : Prop :=
  ∀ (s : State) (x y : Reg) (nn : Byte),
    (∃ t, exec (.ldImm x nn) s = .next t ∧ t = { s with v := t.v, pc := s.pc + 2 } ∧
      ∀ r, t.getV r = if r = x then nn else s.getV r) ∧
    (∃ t, exec (.addImm x nn) s = .next t ∧ t = { s with v := t.v, pc := s.pc + 2 } ∧
      (t.getV x).toNat = ((s.getV x).toNat + nn.toNat) % 256 ∧ ∀ r, r ≠ x → t.getV r = s.getV r) ∧
    (∃ t, exec (.ldReg x y) s = .next t ∧ t = { s with v := t.v, pc := s.pc + 2 } ∧
      ∀ r, t.getV r = if r = x then s.getV y else s.getV r)

/-- R154, R155 and R156, bit by bit. That VF is not written unless X = F is the spec's own decision D13. -/
def Obligations.BitwiseResult : Prop :=
  ∀ (s : State) (x y : Reg),
    (∃ t, exec (.orReg x y) s = .next t ∧ t = { s with v := t.v, pc := s.pc + 2 } ∧
      (∀ b, (t.getV x).getLsbD b = ((s.getV x).getLsbD b || (s.getV y).getLsbD b)) ∧
      ∀ r, r ≠ x → t.getV r = s.getV r) ∧
    (∃ t, exec (.andReg x y) s = .next t ∧ t = { s with v := t.v, pc := s.pc + 2 } ∧
      (∀ b, (t.getV x).getLsbD b = ((s.getV x).getLsbD b && (s.getV y).getLsbD b)) ∧
      ∀ r, r ≠ x → t.getV r = s.getV r) ∧
    (∃ t, exec (.xorReg x y) s = .next t ∧ t = { s with v := t.v, pc := s.pc + 2 } ∧
      (∀ b, (t.getV x).getLsbD b = ((s.getV x).getLsbD b ^^ (s.getV y).getLsbD b)) ∧
      ∀ r, r ≠ x → t.getV r = s.getV r)

/-- R157: both operands are read before either write, and VF is written last, so that for X = F it holds the carry; this
order is the spec's own decision D9. -/
def Obligations.AddWithCarryResult : Prop :=
  ∀ (s : State) (x y : Reg), ∃ t, exec (.addReg x y) s = .next t ∧ t = { s with v := t.v, pc := s.pc + 2 } ∧
    (x ≠ 0xF → (t.getV x).toNat = ((s.getV x).toNat + (s.getV y).toNat) % 256) ∧
    t.getV 0xF = (if (s.getV x).toNat + (s.getV y).toNat > 255 then 1 else 0) ∧
    ∀ r, r ≠ x → r ≠ 0xF → t.getV r = s.getV r

/-- R158 and R160: the condition is strict, so equal operands give VF = 0. The order of the writes for X = F is the spec's
own decision D9. -/
def Obligations.SubtractResult : Prop :=
  ∀ (s : State) (x y : Reg),
    (∃ t, exec (.subReg x y) s = .next t ∧ t = { s with v := t.v, pc := s.pc + 2 } ∧
      (x ≠ 0xF → ((t.getV x).toNat : Int) = (((s.getV x).toNat : Int) - (s.getV y).toNat) % 256) ∧
      t.getV 0xF = (if (s.getV x).toNat > (s.getV y).toNat then 1 else 0) ∧
      ∀ r, r ≠ x → r ≠ 0xF → t.getV r = s.getV r) ∧
    (∃ t, exec (.subnReg x y) s = .next t ∧ t = { s with v := t.v, pc := s.pc + 2 } ∧
      (x ≠ 0xF → ((t.getV x).toNat : Int) = (((s.getV y).toNat : Int) - (s.getV x).toNat) % 256) ∧
      t.getV 0xF = (if (s.getV y).toNat > (s.getV x).toNat then 1 else 0) ∧
      ∀ r, r ≠ x → r ≠ 0xF → t.getV r = s.getV r)

/-- R159, R161 and R94: VX is shifted whatever Y is, and VF takes the bit shifted out. The order of the writes for X = F is
the spec's own decision D9. -/
def Obligations.ShiftResult : Prop :=
  ∀ (s : State) (x y : Reg),
    (∃ t, exec (.shrReg x y) s = .next t ∧ t = { s with v := t.v, pc := s.pc + 2 } ∧
      (x ≠ 0xF → (t.getV x).toNat = (s.getV x).toNat / 2) ∧
      (t.getV 0xF).toNat = (s.getV x).toNat % 2 ∧ ∀ r, r ≠ x → r ≠ 0xF → t.getV r = s.getV r) ∧
    (∃ t, exec (.shlReg x y) s = .next t ∧ t = { s with v := t.v, pc := s.pc + 2 } ∧
      (x ≠ 0xF → (t.getV x).toNat = 2 * (s.getV x).toNat % 256) ∧
      (t.getV 0xF).toNat = (s.getV x).toNat / 128 ∧ ∀ r, r ≠ x → r ≠ 0xF → t.getV r = s.getV r) ∧
    (∀ y', exec (.shrReg x y) s = exec (.shrReg x y') s ∧ exec (.shlReg x y) s = exec (.shlReg x y') s)

/-- R162: VX is the draw ANDed with NN, so no bit outside NN is set, whatever the draw, which is a free value
(D18, notes/assumptions/1.md); the next execution draws afresh. -/
def Obligations.RandomResult : Prop :=
  ∀ (s : State) (x : Reg) (nn : Byte), ∃ t, exec (.rnd x nn) s = .next t ∧
    t = { s with v := t.v, draws := s.draws + 1, pc := s.pc + 2 } ∧
    t.getV x = (Config.randomByte s.draws &&& nn) ∧ (t.getV x &&& ~~~nn) = 0 ∧
    ∀ r, r ≠ x → t.getV r = s.getV r

/-! ### The index register and memory -/

/-- R181 and R183: V[x] is not masked, and nothing wraps (D7). -/
def Obligations.SetIndexResult : Prop :=
  ∀ (s : State) (x : Reg) (nnn : Addr12),
    (exec (.ldI nnn) s = .next { s with i := nnn.setWidth 16, pc := s.pc + 2 }) ∧
    (∃ t, exec (.ldFont x) s = .next t ∧ t = { s with i := t.i, pc := s.pc + 2 } ∧
      t.i.toNat = 5 * (s.getV x).toNat)

/-- R182. That I wraps at 16 bits and that VF is cleared when the new I is not above 0x0FFF are the spec's own decisions
D7 and D8. -/
def Obligations.AddToIndexResult : Prop :=
  ∀ (s : State) (x : Reg),
    ∃ t, exec (.addI x) s = .next t ∧ t = { s with i := t.i, v := t.v, pc := s.pc + 2 } ∧
      t.i.toNat = (s.i.toNat + (s.getV x).toNat) % 0x10000 ∧
      t.getV 0xF = (if t.i.toNat > 0x0FFF then 1 else 0) ∧ ∀ r, r ≠ 0xF → t.getV r = s.getV r

/-- R184: the three decimal digits at I, I+1 and I+2; nothing written when I + 2 is above 0xFFF, which is the
spec's own decision D5. -/
def Obligations.StoreBcdResult : Prop :=
  ∀ (s : State) (x : Reg), s.mem.wf s.cfg.font = true →
    (s.i.toNat + 2 ≤ 0xFFF → ∃ t, exec (.bcd x) s = .next t ∧ t = { s with mem := t.mem, pc := s.pc + 2 } ∧
      (t.readByte (dataAddr s 0)).toNat = (s.getV x).toNat / 100 ∧
      (t.readByte (dataAddr s 1)).toNat = (s.getV x).toNat / 10 % 10 ∧
      (t.readByte (dataAddr s 2)).toNat = (s.getV x).toNat % 10 ∧
      ∀ a, a < dataAddr s 0 ∨ dataAddr s 2 < a → t.readByte a = s.readByte a) ∧
    (0xFFF < s.i.toNat + 2 →
      exec (.bcd x) s = .next { s with fault := some (.dataOutOfRange s.pc (max s.i.toNat 0x1000)) })

/-- R185: V0 to VX at I to I+X, for either value of LS_INCREMENTS_I (D15); nothing written when I + X is above 0xFFF (D5). -/
def Obligations.StoreRegistersResult : Prop :=
  ∀ (s : State) (x : Reg), s.mem.wf s.cfg.font = true →
    (s.i.toNat + x.val ≤ 0xFFF → ∃ t, exec (.storeRegs x) s = .next t ∧
      t = { s with mem := t.mem, i := t.i, pc := s.pc + 2 } ∧
      (∀ k : Reg, k ≤ x → t.readByte (dataAddr s k.val) = s.getV k) ∧
      (∀ a, a < dataAddr s 0 ∨ dataAddr s x.val < a → t.readByte a = s.readByte a) ∧
      (s.cfg.lsIncrementsI = true → t.i.toNat = (s.i.toNat + x.val + 1) % 0x10000) ∧
      (s.cfg.lsIncrementsI = false → t.i = s.i)) ∧
    (0xFFF < s.i.toNat + x.val →
      exec (.storeRegs x) s = .next { s with fault := some (.dataOutOfRange s.pc (max s.i.toNat 0x1000)) })

/-- R186: V0 to VX from I to I+X, every register above VX unchanged, for either value of LS_INCREMENTS_I (D15); no register
written when I + X is above 0xFFF (D5). -/
def Obligations.LoadRegistersResult : Prop :=
  ∀ (s : State) (x : Reg),
    (s.i.toNat + x.val ≤ 0xFFF → ∃ t, exec (.loadRegs x) s = .next t ∧
      t = { s with v := t.v, i := t.i, pc := s.pc + 2 } ∧
      (∀ k : Reg, k ≤ x → t.getV k = s.readByte (dataAddr s k.val)) ∧
      (∀ k : Reg, x < k → t.getV k = s.getV k) ∧
      (s.cfg.lsIncrementsI = true → t.i.toNat = (s.i.toNat + x.val + 1) % 0x10000) ∧
      (s.cfg.lsIncrementsI = false → t.i = s.i)) ∧
    (0xFFF < s.i.toNat + x.val →
      exec (.loadRegs x) s = .next { s with fault := some (.dataOutOfRange s.pc (max s.i.toNat 0x1000)) })

/-- What FX55 stores, FX65 with the same X at the same I loads back into V0 to VX, whatever the registers held
between. -/
def Obligations.LoadRegistersUndoesStoreRegisters : Prop :=
  ∀ (s t u : State) (x : Reg), s.mem.wf s.cfg.font = true → s.i.toNat + x.val ≤ 0xFFF →
    exec (.storeRegs x) s = .next t → u.mem = t.mem → u.cfg = t.cfg → u.i = s.i →
    ∃ w, exec (.loadRegs x) u = .next w ∧ ∀ k : Reg, k ≤ x → w.getV k = s.getV k

/-- R67, which the spec derives from R60 and R63: a store into the two bytes of the next instruction changes what the next
Next executes. Here FX55 with X ≥ 1 and I = PC + 2: the next step runs the instruction whose bytes were V0 and V1.
That a step with no host
operation listed is a Next is the model's choice (notes/assumptions/6.md). -/
def Obligations.StoreIntoCodeRunsNext : Prop :=
  ∀ (s t : State) (x : Reg) (i : Instr), s.mem.wf s.cfg.font = true → s.fault = none → s.schedule = [] →
    1 ≤ x.val → s.i.toNat = s.pc.toNat + 2 → s.i.toNat + x.val ≤ 0xFFF →
    decodeWord (s.getV 0 ++ s.getV 1) = .ok i → exec (.storeRegs x) s = .next t → step t = exec i t

/-! ### Sprite draw -/

/-- R203 with R200, R201 and R202: every pixel a 1-bit lands on is inverted and no other; VF says whether one of them was
set; one notification each, in order, with the new value; every other register is unchanged. That an out-of-range draw has
no effect but the fault, for N = 0 too, is the spec's own decisions D5 and D17. -/
def Obligations.DrawResult : Prop :=
  ∀ (s : State) (x y : Reg) (n : Nat), n ≤ 15 →
    (s.i.toNat ≤ 0xFFF → s.i.toNat + n ≤ 0x1000 → ∃ t, exec (.drw x y n) s = .next t ∧
      t = { s with screen := t.screen, events := t.events, v := t.v, pc := s.pc + 2 } ∧
      (∀ p, getPixel t.screen p = (getPixel s.screen p ^^ decide (p ∈ spriteCells s x y n))) ∧
      t.getV 0xF = (if ∃ p ∈ spriteCells s x y n, getPixel s.screen p = true then 1 else 0) ∧
      (∀ r, r ≠ 0xF → t.getV r = s.getV r) ∧
      t.events = s.events ++
        (spriteCells s x y n).map fun p => .pixelChanged p.1 p.2 (!getPixel s.screen p)) ∧
    (0xFFF < s.i.toNat ∨ 0x1000 < s.i.toNat + n →
      exec (.drw x y n) s = .next { s with fault := some (.dataOutOfRange s.pc (max s.i.toNat 0x1000)) })

/-- R202: one draw never touches the same pixel twice. Its notifications name each pixel at most once; each carries the
value the pixel is left with, the opposite of the one it had; and a pixel that none names is unchanged. That the notifications
stand in a log, and that a draw out of range has none, are the spec's own decisions D28 and D5. -/
def Obligations.DrawTouchesNoPixelTwice : Prop :=
  ∀ (s : State) (x y : Reg) (n : Nat), n ≤ 15 → ∃ (t : State) (told : List (Pixel × Bool)),
    exec (.drw x y n) s = .next t ∧
    t.events = s.events ++ told.map (fun e => .pixelChanged e.1.1 e.1.2 e.2) ∧
    (told.map Prod.fst).Nodup ∧
    (∀ e ∈ told, getPixel t.screen e.1 = e.2 ∧ getPixel s.screen e.1 = !e.2) ∧
    ∀ p, p ∉ told.map Prod.fst → getPixel t.screen p = getPixel s.screen p

/-- R204, the XOR law: the same sprite bytes drawn twice at the same coordinates, with whatever between them that leaves the
screen alone, restore every pixel, and the second draw's VF is 1 exactly when the first turned at least one pixel on. The
second draw may find the bytes through another I and the coordinates in other registers. -/
def Obligations.DrawTwiceRestoresTheScreen : Prop :=
  ∀ (s t m u : State) (x y x' y' : Reg) (n : Nat), n ≤ 15 → s.i.toNat ≤ 0xFFF → s.i.toNat + n ≤ 0x1000 →
    m.i.toNat ≤ 0xFFF → m.i.toNat + n ≤ 0x1000 → exec (.drw x y n) s = .next t → m.screen = t.screen →
    (∀ j, j < n → m.readByte (dataAddr m j) = s.readByte (dataAddr s j)) →
    m.getV x' = s.getV x → m.getV y' = s.getV y → exec (.drw x' y' n) m = .next u →
    u.screen = s.screen ∧
    (u.getV 0xF = 1 ↔ ∃ p, getPixel s.screen p = false ∧ getPixel t.screen p = true)

/-! ### Timers and keys -/

/-- R220, R221 and R222; what the Tickers after FX15 and FX18 do is `TickersInARow`. -/
def Obligations.TimerAccessResult : Prop :=
  ∀ (s : State) (x : Reg),
    (∃ t, exec (.ldDT x) s = .next t ∧ t = { s with v := t.v, pc := s.pc + 2 } ∧
      ∀ r, t.getV r = if r = x then s.dt else s.getV r) ∧
    exec (.setDT x) s = .next { s with dt := s.getV x, pc := s.pc + 2 } ∧
    exec (.setST x) s = .next { s with st := s.getV x, pc := s.pc + 2 }

/-- R223: the lowest key down; with no key down nothing changes. -/
def Obligations.WaitForKeyResult : Prop :=
  ∀ (s : State) (x : Reg),
    (∀ k : Reg, s.keyDown k = true → (∀ j, j < k → s.keyDown j = false) →
      ∃ t, exec (.waitKey x) s = .next t ∧ t = { s with v := t.v, pc := s.pc + 2 } ∧
        (t.getV x).toNat = k.val ∧ ∀ r, r ≠ x → t.getV r = s.getV r) ∧
    ((∀ k, s.keyDown k = false) → exec (.waitKey x) s = .next s)

/-- R250, whether or not the CORE is faulted. The log that holds the notification is the spec's own decision D28. -/
def Obligations.TickerResult : Prop :=
  ∀ s : State, ∃ t, hostStep .ticker s = .next t ∧ t = { s with dt := t.dt, st := t.st, events := t.events } ∧
    t.dt.toNat = s.dt.toNat - 1 ∧ t.st.toNat = s.st.toNat - 1 ∧
    t.events = s.events ++ (if s.st = 1 then [.playTone] else [])

/-- R250 over time, as R221 and R222 use it: after `k` Tickers in a row each timer is `k` lower with floor 0, and PlayTone
was emitted once if ST was at least 1 and at most `k`, and not otherwise. The log is the spec's own decision D28; that the
operations come from a schedule in the state is the model's choice (notes/assumptions/6.md). -/
def Obligations.TickersInARow : Prop :=
  ∀ (s : State) (k : Nat), s.schedule = List.replicate k .ticker →
    ∃ t, Host.Core.run Sys2Proof.core k s = .next t ∧
      t = { s with dt := t.dt, st := t.st, events := t.events, schedule := [] } ∧
      t.dt.toNat = s.dt.toNat - k ∧ t.st.toNat = s.st.toNat - k ∧
      t.events = s.events ++ (if 1 ≤ s.st.toNat ∧ s.st.toNat ≤ k then [.playTone] else [])

/-- R260 and R261: an index above 15 changes nothing. -/
def Obligations.KeyEventResult : Prop :=
  ∀ (s : State) (idx : Nat),
    (∃ t, hostStep (.keyDown idx) s = .next t ∧ t = { s with keys := t.keys } ∧
      ∀ k : Reg, t.keyDown k = if k.val = idx then true else s.keyDown k) ∧
    (∃ t, hostStep (.keyUp idx) s = .next t ∧ t = { s with keys := t.keys } ∧
      ∀ k : Reg, t.keyDown k = if k.val = idx then false else s.keyDown k)

/-- R262 (that no queue is CORE state is the spec's own decision D30): after any run of key events a key is down exactly when
the latest event about it was a KeyDown, and as before when there was none; nothing else changes. That the operations come
from a schedule in the state is the model's choice (notes/assumptions/6.md). -/
def Obligations.KeypadIsLevelState : Prop :=
  ∀ (ops : List HostOp) (s : State), (∀ op ∈ ops, isKeyEvent op = true) → s.schedule = ops →
    ∃ t, Host.Core.run Sys2Proof.core ops.length s = .next t ∧ t = { s with keys := t.keys, schedule := [] } ∧
      ∀ k, t.keyDown k = ops.foldl (keyAfter k) (s.keyDown k)

/-! ### Load and launch -/

/-- R284: the bytes land from 0x200 on and nothing else changes; an image of more than 3584 bytes writes nothing
(D20). -/
def Obligations.LoadResult : Prop :=
  ∀ (s : State) (bytes : List Byte), s.mem.wf s.cfg.font = true →
    (0x200 + bytes.length ≤ 4096 → ∃ t, s.hostLoad bytes = (t, .ok) ∧ t = { s with mem := t.mem } ∧
      (∀ k, (h : k < bytes.length) → t.readByte (0x200 + k) = bytes[k]) ∧
      ∀ a, a < 0x200 ∨ 0x200 + bytes.length ≤ a → t.readByte a = s.readByte a) ∧
    (4096 < 0x200 + bytes.length → s.hostLoad bytes = (s, .loadOutOfBounds)) ∧
    hostStep (.load bytes) s = .next (s.hostLoad bytes).1

/-- R287 and R288: the launch state of a ROM that fits meets the machine's invariant, runs at 0x200 and holds the ROM,
whatever state came before Reset (D1, D20). -/
def Obligations.LaunchIsReady : Prop :=
  ∀ (s : State) (rom : List Byte), rom.length ≤ 3584 → ∃ t, launch s rom = (t, .ok) ∧ Inv t ∧ Running t ∧
    t.pc = 0x200 ∧ ∀ k, (h : k < rom.length) → t.readByte (0x200 + k) = rom[k]

/-! ### Faults -/

/-- R242 and R243, the spec's own decisions D5 and D25: when a Next records a fatal condition, that is the only state
change, and the PC it records is still in PC. That a step with no host
operation listed is a Next is the model's choice (notes/assumptions/6.md). -/
def Obligations.FaultIsAllOrNothing : Prop :=
  ∀ (s t : State) (f : Fatal), s.schedule = [] → s.fault = none → step s = .next t → t.fault = some f →
    t = { s with fault := some f } ∧ fatalPc f = s.pc ∧ t.pc = s.pc

/-- R241's last clause with R245 (the spec's own decisions D4 and D27): an instruction always answers a next state, and it
records a fatal condition exactly when its own check fails. -/
def Obligations.OnlyTheOwnCheckFaults : Prop :=
  ∀ (i : Instr) (s : State), s.fault = none →
    ∃ t, exec i s = .next t ∧ (t.fault = none ↔ ownCheckPasses s i)

/-- R244 (the spec's own decisions D4 and D22): a faulted CORE has no Next, so no run of Nexts goes past the fault; Ticker,
the keys and Load stay defined, keep the fault and change only their own elements; Reset clears it. That a step with no host
operation listed is a Next is the model's choice (notes/assumptions/6.md). -/
def Obligations.FaultedUntilReset : Prop :=
  ∀ (s : State) (f : Fatal), s.fault = some f →
    hostStep .next s = .fault (.halted f) ∧
    (∀ k, s.schedule = [] → Host.Core.run Sys2Proof.core (k + 1) s = .fault (.halted f)) ∧
    (∃ t, hostStep .ticker s = .next t ∧ t = { s with dt := t.dt, st := t.st, events := t.events }) ∧
    (∀ idx, ∃ t, hostStep (.keyDown idx) s = .next t ∧ t = { s with keys := t.keys }) ∧
    (∀ idx, ∃ t, hostStep (.keyUp idx) s = .next t ∧ t = { s with keys := t.keys }) ∧
    (∀ bytes, ∃ t, hostStep (.load bytes) s = .next t ∧ t = { s with mem := t.mem }) ∧
    (∃ t, hostStep .reset s = .next t ∧ t.fault = none)

/-! ### Rules of the whole machine -/

/-- R42's row for Next, instruction by instruction: which instruction writes which element. The parameters, the keypad and
the schedule are written by none. -/
def Obligations.InstructionsWriteOnlyTheirElements : Prop :=
  ∀ (i : Instr) (s t : State), exec i s = .next t →
    t.cfg = s.cfg ∧ t.keys = s.keys ∧ t.schedule = s.schedule ∧
    (t.dt ≠ s.dt → ∃ x, i = .setDT x) ∧
    (t.st ≠ s.st → ∃ x, i = .setST x) ∧
    (t.i ≠ s.i → (∃ nnn, i = .ldI nnn) ∨ (∃ x, i = .addI x) ∨ (∃ x, i = .ldFont x) ∨
      (s.cfg.lsIncrementsI = true ∧ ((∃ x, i = .storeRegs x) ∨ ∃ x, i = .loadRegs x))) ∧
    (t.stack = s.stack ∨ (∃ nnn, i = .call nnn ∧ t.stack = (s.pc + 2) :: s.stack) ∨
      (i = .ret ∧ ∃ top, s.stack = top :: t.stack)) ∧
    (t.mem ≠ s.mem → (∃ x, i = .bcd x) ∨ ∃ x, i = .storeRegs x) ∧
    (t.screen ≠ s.screen → i = .cls ∨ ∃ x y n, i = .drw x y n) ∧
    (t.events ≠ s.events → i = .cls ∨ ∃ x y n, i = .drw x y n) ∧
    (t.draws ≠ s.draws → ∃ x nn, i = .rnd x nn)

/-- The register frame, for every instruction at once: which registers each may write (R24's table, and the destination of
its rule); every other register is unchanged. -/
def Obligations.RegisterFrame : Prop :=
  ∀ (i : Instr) (s t : State), exec i s = .next t → ∀ r, ¬ mayWriteReg i r → t.getV r = s.getV r

/-- The memory frame, for every instruction at once (R55): every byte that FX33 and FX55 do not store to reads as before,
and all of memory after any other instruction. -/
def Obligations.MemoryFrame : Prop :=
  ∀ (i : Instr) (s t : State), s.mem.wf s.cfg.font = true → exec i s = .next t →
    ∀ a, ¬ storesTo s i a → t.readByte a = s.readByte a

/-- R34: only KeyDown, KeyUp and Reset write the keypad; R33: only 00E0, DXYN and Reset write the screen, so a step that
is no Next and no Reset never does; R35: nothing writes the parameters. That the operations come from a schedule in the state,
and a Next when none is listed, is the model's choice (notes/assumptions/6.md). -/
def Obligations.OnlyTheirOperationsWriteKeysAndScreen : Prop :=
  ∀ (s t : State), step s = .next t →
    t.cfg = s.cfg ∧
    (t.keys ≠ s.keys → ∃ op ops, s.schedule = op :: ops ∧ (isKeyEvent op = true ∨ op = .reset)) ∧
    (t.screen ≠ s.screen →
      (∃ ops, s.schedule = .reset :: ops) ∨
      ((s.schedule = [] ∨ ∃ ops, s.schedule = .next :: ops) ∧
        (decodeWord (fetchWord s) = .ok .cls ∨ ∃ x y n, decodeWord (fetchWord s) = .ok (.drw x y n))))

/-- R39 (the log is the spec's own decision D28): every step, whatever host operation it is, only appends to it. -/
def Obligations.EventLogOnlyGrows : Prop :=
  ∀ (s t : State), step s = .next t → s.events <+: t.events

/-- R39 and R253 (D28): the CORE never reads its event log. Two states that differ in the log alone take the same step, and
each log grows by the same notifications. -/
def Obligations.EventLogIsNeverRead : Prop :=
  ∀ (s : State) (log : List Event),
    step { s with events := log } =
      onNext (fun t => { t with events := log ++ t.events.drop s.events.length }) (step s)

/-- R34's second half: no instruction but EX9E, EXA1 and FX0A reads the keypad. -/
def Obligations.OnlyKeyInstructionsReadTheKeypad : Prop :=
  ∀ (i : Instr) (s : State) (keys : Vector Bool 16),
    (∀ x, i ≠ .skp x) → (∀ x, i ≠ .sknp x) → (∀ x, i ≠ .waitKey x) →
    exec i { s with keys := keys } = onNext (fun t => { t with keys := keys }) (exec i s)

/-- R30: no instruction reads ST. -/
def Obligations.NoInstructionReadsTheSoundTimer : Prop :=
  ∀ (i : Instr) (s : State) (b : Byte), (∀ x, i ≠ .setST x) →
    exec i { s with st := b } = onNext (fun t => { t with st := b }) (exec i s)

/-- R295 (the spec's own decision D31): a stopped state is a fixed point of Next, however many are asked for.
That a step with no host
operation listed is a Next is the model's choice (notes/assumptions/6.md). -/
def Obligations.StoppedStateStays : Prop :=
  ∀ (s : State) (k : Nat), Stopped s → s.schedule = [] → Host.Core.run Sys2Proof.core k s = .next s

/-- R223 and R295 (D31): a waiting state stays through any number of Nexts, and after a KeyDown of a key the next Next loads
that key's index and goes on. That the operations come from a schedule in the state, and a Next when none is listed, is the
model's choice (notes/assumptions/6.md). -/
def Obligations.WaitingStateStaysUntilAKey : Prop :=
  ∀ (s : State) (k : Nat), Waiting s → s.schedule = [] →
    Host.Core.run Sys2Proof.core k s = .next s ∧
    ∀ key : Reg, ∃ t x, Host.Core.run Sys2Proof.core 2 { s with schedule := [.keyDown key.val] } = .next t ∧
      decodeWord (fetchWord s) = .ok (.waitKey x) ∧ (t.getV x).toNat = key.val ∧ t.pc = s.pc + 2

/-- Every step of the machine, whatever host operation it is, keeps its invariant: memory in canonical form, PC at most
0x10FE, every return address between 2 and 0x1000, the stack within its depth, and a recorded fault true of the state. The
canonical form and the schedule are the model's choice (notes/assumptions/11.md and 6.md). -/
def Obligations.StepKeepsTheInvariant : Prop :=
  ∀ (s t : State), Inv s → step s = .next t → Inv t

/-- The invariant holds after Reset, whatever the parameters. -/
def Obligations.ResetMeetsTheInvariant : Prop := Inv State.reset ∧ ∀ cfg : Config, Inv (State.resetWith cfg)

/-- The canonical form is one per memory: two memories in it that read the same at every address are the same list. It is a
law of the model's own representation of memory (notes/assumptions/11.md), which no rule of the spec gives. -/
def Obligations.CanonicalMemoryIsUnique : Prop :=
  ∀ (font : Font) (m m' : Memory), m.wf font = true → m'.wf font = true →
    (∀ a, memRead font m a = memRead font m' a) → m = m'
end

