-- ==== Sys2Proof/Laws/Decode.lean ====
section
/-! SUPPORT. The fields of an encoded word: in each format, every field reads back the operand it was written with
(R83, R86), and the fields of any word make the word up again. -/

namespace Sys2Proof

/-- The composed NNN is the low twelve bits, for every word (R84). -/
theorem fieldNNN_eq (w : Word) : fieldNNN w = w.extractLsb' 0 12 := by
  apply BitVec.eq_of_getLsbD_eq
  intro i hi
  simp only [fieldNNN, fieldNN, BitVec.getLsbD_or, BitVec.getLsbD_shiftLeft, BitVec.getLsbD_setWidth,
    BitVec.getLsbD_extractLsb', hi, decide_true, Bool.true_and]
  by_cases h : i < 8
  · simp [h]
  · have h4 : i - 8 < 4 := by omega
    simp [h, h4, (by omega : i - 8 < 12), (by omega : 8 + (i - 8) = i)]

/-! ### The bits of an encoded word -/

theorem getLsbD_encNNN (op : BitVec 4) (nnn : Addr12) (i : Nat) :
    (encNNN op nnn).getLsbD i = if i < 12 then nnn.getLsbD i else op.getLsbD (i - 12) :=
  BitVec.getLsbD_append

theorem getLsbD_encXNN (op : BitVec 4) (x : Reg) (nn : Byte) (i : Nat) :
    (encXNN op x nn).getLsbD i =
      if i < 8 then nn.getLsbD i
      else if i - 8 < 4 then (BitVec.ofFin x : BitVec 4).getLsbD (i - 8) else op.getLsbD (i - 8 - 4) := by
  have h1 : (encXNN op x nn).getLsbD i =
      if i < 8 then nn.getLsbD i else (op ++ (BitVec.ofFin x : BitVec 4)).getLsbD (i - 8) := BitVec.getLsbD_append
  rw [h1, BitVec.getLsbD_append]

theorem getLsbD_encXYN (op : BitVec 4) (x y : Reg) (n : BitVec 4) (i : Nat) :
    (encXYN op x y n).getLsbD i =
      if i < 4 then n.getLsbD i
      else if i - 4 < 4 then (BitVec.ofFin y : BitVec 4).getLsbD (i - 4)
      else if i - 4 - 4 < 4 then (BitVec.ofFin x : BitVec 4).getLsbD (i - 4 - 4)
      else op.getLsbD (i - 4 - 4 - 4) := by
  have h1 : (encXYN op x y n).getLsbD i =
      if i < 4 then n.getLsbD i
      else (op ++ (BitVec.ofFin x : BitVec 4) ++ (BitVec.ofFin y : BitVec 4)).getLsbD (i - 4) := BitVec.getLsbD_append
  rw [h1, BitVec.getLsbD_append, BitVec.getLsbD_append]

/-- A field is known from its bits. -/
theorem extractLsb'_eq {w : Word} {start len : Nat} {v : BitVec len}
    (h : ∀ i, i < len → w.getLsbD (start + i) = v.getLsbD i) : w.extractLsb' start len = v := by
  apply BitVec.eq_of_getLsbD_eq
  intro i hi
  simp [hi, h i hi]

/-! ### The fields of each format -/

section
variable (op : BitVec 4) (x y : Reg) (nn : Byte) (nnn : Addr12) (n : BitVec 4)

@[simp] theorem fieldOp_encNNN : fieldOp (encNNN op nnn) = op :=
  extractLsb'_eq fun i _ => by rw [getLsbD_encNNN, if_neg (by omega), Nat.add_sub_cancel_left]

@[simp] theorem fieldNNN_encNNN : fieldNNN (encNNN op nnn) = nnn := by
  rw [fieldNNN_eq]
  exact extractLsb'_eq fun i hi => by rw [getLsbD_encNNN, if_pos (by omega), Nat.zero_add]

@[simp] theorem fieldOp_encXNN : fieldOp (encXNN op x nn) = op :=
  extractLsb'_eq fun i _ => by
    rw [getLsbD_encXNN, if_neg (by omega), if_neg (by omega)]
    congr 1
    omega

@[simp] theorem fieldX_encXNN : fieldX (encXNN op x nn) = x := by
  have h : (encXNN op x nn).extractLsb' 8 4 = BitVec.ofFin x :=
    extractLsb'_eq fun i _ => by rw [getLsbD_encXNN, if_neg (by omega), if_pos (by omega), Nat.add_sub_cancel_left]
  rw [fieldX, h]

@[simp] theorem fieldNN_encXNN : fieldNN (encXNN op x nn) = nn :=
  extractLsb'_eq fun i hi => by rw [getLsbD_encXNN, if_pos (by omega), Nat.zero_add]

@[simp] theorem fieldOp_encXYN : fieldOp (encXYN op x y n) = op :=
  extractLsb'_eq fun i _ => by
    rw [getLsbD_encXYN, if_neg (by omega), if_neg (by omega), if_neg (by omega)]
    congr 1
    omega

@[simp] theorem fieldX_encXYN : fieldX (encXYN op x y n) = x := by
  have h : (encXYN op x y n).extractLsb' 8 4 = BitVec.ofFin x :=
    extractLsb'_eq fun i _ => by
      rw [getLsbD_encXYN, if_neg (by omega), if_neg (by omega), if_pos (by omega)]
      congr 1
      omega
  rw [fieldX, h]

@[simp] theorem fieldY_encXYN : fieldY (encXYN op x y n) = y := by
  have h : (encXYN op x y n).extractLsb' 4 4 = BitVec.ofFin y :=
    extractLsb'_eq fun i _ => by rw [getLsbD_encXYN, if_neg (by omega), if_pos (by omega), Nat.add_sub_cancel_left]
  rw [fieldY, h]

@[simp] theorem fieldN_encXYN : fieldN (encXYN op x y n) = n :=
  extractLsb'_eq fun i hi => by rw [getLsbD_encXYN, if_pos (by omega), Nat.zero_add]

end

/-! ### A word is made up of its fields -/

theorem encNNN_fields (w : Word) : encNNN (fieldOp w) (fieldNNN w) = w := by
  apply BitVec.eq_of_getLsbD_eq
  intro i hi
  rw [getLsbD_encNNN, fieldNNN_eq, fieldOp]
  split
  · simp [*]
  · simp [(by omega : i - 12 < 4), (by omega : 12 + (i - 12) = i)]

theorem encXNN_fields (w : Word) : encXNN (fieldOp w) (fieldX w) (fieldNN w) = w := by
  apply BitVec.eq_of_getLsbD_eq
  intro i hi
  have hx : (BitVec.ofFin (fieldX w) : BitVec 4) = w.extractLsb' 8 4 := rfl
  rw [getLsbD_encXNN, hx, fieldOp, fieldNN]
  simp only [BitVec.getLsbD_extractLsb']
  split
  · simp [*]
  · split
    · simp [*, (by omega : 8 + (i - 8) = i)]
    · simp [(by omega : i - 8 - 4 < 4), (by omega : 12 + (i - 8 - 4) = i)]

theorem encXYN_fields (w : Word) : encXYN (fieldOp w) (fieldX w) (fieldY w) (fieldN w) = w := by
  apply BitVec.eq_of_getLsbD_eq
  intro i hi
  have hx : (BitVec.ofFin (fieldX w) : BitVec 4) = w.extractLsb' 8 4 := rfl
  have hy : (BitVec.ofFin (fieldY w) : BitVec 4) = w.extractLsb' 4 4 := rfl
  rw [getLsbD_encXYN, hx, hy, fieldOp, fieldN]
  simp only [BitVec.getLsbD_extractLsb']
  split
  · simp [*]
  · split
    · simp [*, (by omega : 4 + (i - 4) = i)]
    · split
      · simp [*, (by omega : 8 + (i - 4 - 4) = i)]
      · simp [(by omega : i - 4 - 4 - 4 < 4), (by omega : 12 + (i - 4 - 4 - 4) = i)]

/-! ### Bytes in memory order -/

/-- The word's two bytes, high byte first, make the word up again (R58). -/
@[simp] theorem wordOfBytes_bytes (w : Word) : wordOfBytes (w.extractLsb' 8 8) (w.extractLsb' 0 8) = w := by
  apply BitVec.eq_of_getLsbD_eq
  intro i hi
  have h1 : (wordOfBytes (w.extractLsb' 8 8) (w.extractLsb' 0 8)).getLsbD i =
      if i < 8 then (w.extractLsb' 0 8).getLsbD i else (w.extractLsb' 8 8).getLsbD (i - 8) := BitVec.getLsbD_append
  rw [h1]
  split
  · simp [*]
  · simp [(by omega : i - 8 < 8), (by omega : 8 + (i - 8) = i)]

/-- Decoding two bytes is decoding the word they make (R60, R87). -/
theorem decode_pair (hi lo : Byte) (rest : List Byte) :
    decode (hi :: lo :: rest) = (decodeWord (wordOfBytes hi lo)).map fun i => (i, rest) := by
  simp only [decode]
  cases decodeWord (wordOfBytes hi lo) <;> rfl

end Sys2Proof
end

