-- ==== Sys2Proof/Laws/Memory.lean ====
section
/-! SUPPORT. The laws of memory: a read after a write, the canonical form kept by every operation, and its uniqueness. -/

namespace Sys2Proof.Machine

/-! ### The canonical form, one entry at a time -/

theorem memWfFrom_cons (font : Font) (lo a : Nat) (b : Byte) (m : Memory) :
    memWfFrom font lo ((a, b) :: m) = true ↔
      lo ≤ a ∧ a < memSize ∧ b ≠ resetByte font a ∧ memWfFrom font (a + 1) m = true := by
  simp [memWfFrom, and_assoc]

theorem memWfFrom_mono {font : Font} {lo lo' : Nat} {m : Memory} (h : memWfFrom font lo m = true) (hle : lo' ≤ lo) :
    memWfFrom font lo' m = true := by
  cases m with
  | nil => rfl
  | cons c m =>
    obtain ⟨a, b⟩ := c
    rw [memWfFrom_cons] at h ⊢
    exact ⟨hle.trans h.1, h.2⟩

theorem memLookup_below {font : Font} {lo : Nat} {m : Memory} (h : memWfFrom font lo m = true) {a : Nat} (ha : a < lo) :
    memLookup m a = none := by
  induction m generalizing lo with
  | nil => rfl
  | cons c m ih =>
    obtain ⟨k, b⟩ := c
    rw [memWfFrom_cons] at h
    have hk : k ≠ a := by omega
    simp only [memLookup, hk, if_false]
    exact ih h.2.2.2 (by omega)

theorem memLookup_top {font : Font} {lo : Nat} {m : Memory} (h : memWfFrom font lo m = true) {a : Nat}
    (ha : memSize ≤ a) : memLookup m a = none := by
  induction m generalizing lo with
  | nil => rfl
  | cons c m ih =>
    obtain ⟨k, b⟩ := c
    rw [memWfFrom_cons] at h
    have hk : k ≠ a := by omega
    simp only [memLookup, hk, if_false]
    exact ih h.2.2.2

theorem memLookup_ne_reset {font : Font} {lo : Nat} {m : Memory} (h : memWfFrom font lo m = true) {a : Nat} {b : Byte}
    (hb : memLookup m a = some b) : b ≠ resetByte font a := by
  induction m generalizing lo with
  | nil => simp [memLookup] at hb
  | cons c m ih =>
    obtain ⟨k, d⟩ := c
    rw [memWfFrom_cons] at h
    by_cases hk : k = a
    · subst hk
      simp only [memLookup, if_true, Option.some.injEq] at hb
      exact hb ▸ h.2.2.1
    · simp only [memLookup, hk, if_false] at hb
      exact ih h.2.2.2 hb

/-! ### Erasing and inserting an entry -/

theorem memErase_wfFrom {font : Font} {lo : Nat} {m : Memory} (h : memWfFrom font lo m = true) (a : Nat) :
    memWfFrom font lo (memErase m a) = true := by
  induction m generalizing lo with
  | nil => rfl
  | cons c m ih =>
    obtain ⟨k, b⟩ := c
    rw [memWfFrom_cons] at h
    by_cases hk : k = a
    · simp only [memErase, hk, if_true]
      exact memWfFrom_mono h.2.2.2 (by omega)
    · simp only [memErase, hk, if_false, memWfFrom_cons]
      exact ⟨h.1, h.2.1, h.2.2.1, ih h.2.2.2⟩

theorem memInsert_wfFrom {font : Font} {lo : Nat} {m : Memory} (h : memWfFrom font lo m = true) {a : Nat} {b : Byte}
    (hlo : lo ≤ a) (ha : a < memSize) (hb : b ≠ resetByte font a) : memWfFrom font lo (memInsert m a b) = true := by
  induction m generalizing lo with
  | nil => simp [memInsert, memWfFrom, hlo, ha, hb]
  | cons c m ih =>
    obtain ⟨k, d⟩ := c
    rw [memWfFrom_cons] at h
    unfold memInsert
    split
    · rename_i hlt
      simp only [memWfFrom_cons]
      exact ⟨hlo, ha, hb, by omega, h.2.1, h.2.2.1, h.2.2.2⟩
    · split
      · rename_i _ heq
        rw [memWfFrom_cons]
        exact ⟨hlo, ha, hb, heq ▸ h.2.2.2⟩
      · rw [memWfFrom_cons]
        exact ⟨h.1, h.2.1, h.2.2.1, ih h.2.2.2 (by omega)⟩

theorem memLookup_erase {font : Font} {lo : Nat} {m : Memory} (h : memWfFrom font lo m = true) (a c : Nat) :
    memLookup (memErase m a) c = if c = a then none else memLookup m c := by
  induction m generalizing lo with
  | nil => simp [memErase, memLookup]
  | cons e m ih =>
    obtain ⟨k, d⟩ := e
    rw [memWfFrom_cons] at h
    by_cases hk : k = a
    · subst hk
      simp only [memErase, if_true, memLookup]
      by_cases hc : c = k
      · subst hc; simpa using memLookup_below h.2.2.2 (Nat.lt_succ_self c)
      · simp [hc, Ne.symm hc]
    · simp only [memErase, hk, if_false, memLookup, ih h.2.2.2]
      by_cases hc : k = c
      · subst hc; simp [hk]
      · simp [hc]

theorem memLookup_insert {font : Font} {lo : Nat} {m : Memory} (h : memWfFrom font lo m = true) (a c : Nat) (b : Byte) :
    memLookup (memInsert m a b) c = if c = a then some b else memLookup m c := by
  induction m generalizing lo with
  | nil => simp [memInsert, memLookup, eq_comm]
  | cons e m ih =>
    obtain ⟨k, d⟩ := e
    rw [memWfFrom_cons] at h
    unfold memInsert
    split
    · by_cases hc : c = a
      · simp [memLookup, hc]
      · simp [memLookup, hc, Ne.symm hc]
    · split
      · rename_i _ heq
        subst heq
        by_cases hc : c = a
        · simp [memLookup, hc]
        · simp [memLookup, hc, Ne.symm hc]
      · rename_i hne
        simp only [memLookup, ih h.2.2.2]
        by_cases hc : k = c
        · subst hc; simp [Ne.symm hne]
        · simp [hc]

/-! ### One write -/

/-- A write keeps the canonical form. -/
theorem memWrite_wf {font : Font} {m : Memory} (h : m.wf font = true) {a : Nat} (ha : a < memSize) (b : Byte) :
    (memWrite font m a b).wf font = true := by
  unfold memWrite
  split
  · exact memErase_wfFrom h a
  · exact memInsert_wfFrom h (Nat.zero_le a) ha (by assumption)

/-- What one write changes: a read of its address gives the byte written, and every other address reads as before. -/
theorem memRead_write {font : Font} {m : Memory} (h : m.wf font = true) (a c : Nat) (b : Byte) :
    memRead font (memWrite font m a b) c = if c = a then b else memRead font m c := by
  unfold memRead memWrite
  split
  · rename_i hb
    rw [memLookup_erase h]
    by_cases hc : c = a <;> simp [hc, hb]
  · rw [memLookup_insert h]
    by_cases hc : c = a <;> simp [hc]

/-- An address that memory does not have reads as 0 and is never listed. -/
theorem memRead_top {font : Font} {m : Memory} (h : m.wf font = true) {a : Nat} (ha : memSize ≤ a) :
    memRead font m a = 0 := by
  have h80 : ¬ a < 80 := by simp only [memSize] at ha; omega
  simp [memRead, memLookup_top h ha, resetByte, h80]

/-! ### Transfers -/

theorem memWriteList_wf {font : Font} {m : Memory} (h : m.wf font = true) {a : Nat} {bs : List Byte}
    (ha : a + bs.length ≤ memSize) : (memWriteList font m a bs).wf font = true := by
  induction bs generalizing m a with
  | nil => exact h
  | cons b bs ih =>
    simp only [List.length_cons] at ha
    exact ih (memWrite_wf h (by omega) b) (by omega)

/-- What a transfer to memory changes: the bytes land at consecutive addresses, and every other address reads as before. -/
theorem memRead_writeList {font : Font} {m : Memory} (h : m.wf font = true) {a : Nat} {bs : List Byte}
    (ha : a + bs.length ≤ memSize) (c : Nat) :
    memRead font (memWriteList font m a bs) c =
      if a ≤ c then (bs[c - a]?).getD (memRead font m c) else memRead font m c := by
  induction bs generalizing m a with
  | nil => simp [memWriteList]
  | cons b bs ih =>
    simp only [List.length_cons] at ha
    rw [memWriteList, ih (memWrite_wf h (by omega) b) (by omega), memRead_write h]
    by_cases h1 : a + 1 ≤ c
    · have h2 : c ≠ a := by omega
      have h3 : c - a = (c - (a + 1)) + 1 := by omega
      simp [h1, h2, h3, (by omega : a ≤ c)]
    · by_cases h2 : c = a
      · subst h2; simp
      · rw [if_neg h1, if_neg h2, if_neg (by omega)]

@[simp] theorem memReadList_length (font : Font) (m : Memory) (a n : Nat) : (memReadList font m a n).length = n := by
  induction n generalizing a with
  | zero => rfl
  | succ n ih => simp [memReadList, ih]

/-- Byte `k` of a transfer from memory is the byte at the `k`-th consecutive address. -/
theorem memReadList_getElem (font : Font) (m : Memory) (a n k : Nat) (hk : k < (memReadList font m a n).length) :
    (memReadList font m a n)[k] = memRead font m (a + k) := by
  induction n generalizing a k with
  | zero => simp [memReadList] at hk
  | succ n ih =>
    cases k with
    | zero => simp [memReadList]
    | succ k =>
      simp only [memReadList, List.getElem_cons_succ]
      rw [ih]
      congr 1
      omega

/-- A transfer from memory depends only on what the addresses read as. -/
theorem memReadList_congr {font : Font} {m m' : Memory} {a n : Nat}
    (h : ∀ k, k < n → memRead font m (a + k) = memRead font m' (a + k)) :
    memReadList font m a n = memReadList font m' a n := by
  apply List.ext_getElem (by simp)
  intro k h1 h2
  rw [memReadList_getElem, memReadList_getElem]
  exact h k (by simpa using h1)

end Sys2Proof.Machine
end

