-- ==== Sys2Proof/Laws/State.lean ====
section
/-! SUPPORT. One lemma per field of `State` per update, so that no later proof unfolds a record update; and what an update
leaves of the two accessors that read through a field. -/

namespace Sys2Proof.Machine

/-! ### `setV` -/

@[simp] theorem setV_v (s : State) (x : Reg) (b : Byte) : (s.setV x b).v = s.v.set x.val b := rfl
@[simp] theorem setV_i (s : State) (x : Reg) (b : Byte) : (s.setV x b).i = s.i := rfl
@[simp] theorem setV_pc (s : State) (x : Reg) (b : Byte) : (s.setV x b).pc = s.pc := rfl
@[simp] theorem setV_dt (s : State) (x : Reg) (b : Byte) : (s.setV x b).dt = s.dt := rfl
@[simp] theorem setV_st (s : State) (x : Reg) (b : Byte) : (s.setV x b).st = s.st := rfl
@[simp] theorem setV_stack (s : State) (x : Reg) (b : Byte) : (s.setV x b).stack = s.stack := rfl
@[simp] theorem setV_mem (s : State) (x : Reg) (b : Byte) : (s.setV x b).mem = s.mem := rfl
@[simp] theorem setV_screen (s : State) (x : Reg) (b : Byte) : (s.setV x b).screen = s.screen := rfl
@[simp] theorem setV_keys (s : State) (x : Reg) (b : Byte) : (s.setV x b).keys = s.keys := rfl
@[simp] theorem setV_fault (s : State) (x : Reg) (b : Byte) : (s.setV x b).fault = s.fault := rfl
@[simp] theorem setV_events (s : State) (x : Reg) (b : Byte) : (s.setV x b).events = s.events := rfl
@[simp] theorem setV_cfg (s : State) (x : Reg) (b : Byte) : (s.setV x b).cfg = s.cfg := rfl
@[simp] theorem setV_draws (s : State) (x : Reg) (b : Byte) : (s.setV x b).draws = s.draws := rfl
@[simp] theorem setV_schedule (s : State) (x : Reg) (b : Byte) : (s.setV x b).schedule = s.schedule := rfl
@[simp] theorem setV_readByte (s : State) (x : Reg) (b : Byte) (a : Nat) : (s.setV x b).readByte a = s.readByte a := rfl
@[simp] theorem setV_keyDown (s : State) (x : Reg) (b : Byte) (k : Reg) : (s.setV x b).keyDown k = s.keyDown k := rfl

/-! ### `setI` -/

@[simp] theorem setI_v (s : State) (w : Word) : (s.setI w).v = s.v := rfl
@[simp] theorem setI_i (s : State) (w : Word) : (s.setI w).i = w := rfl
@[simp] theorem setI_pc (s : State) (w : Word) : (s.setI w).pc = s.pc := rfl
@[simp] theorem setI_dt (s : State) (w : Word) : (s.setI w).dt = s.dt := rfl
@[simp] theorem setI_st (s : State) (w : Word) : (s.setI w).st = s.st := rfl
@[simp] theorem setI_stack (s : State) (w : Word) : (s.setI w).stack = s.stack := rfl
@[simp] theorem setI_mem (s : State) (w : Word) : (s.setI w).mem = s.mem := rfl
@[simp] theorem setI_screen (s : State) (w : Word) : (s.setI w).screen = s.screen := rfl
@[simp] theorem setI_keys (s : State) (w : Word) : (s.setI w).keys = s.keys := rfl
@[simp] theorem setI_fault (s : State) (w : Word) : (s.setI w).fault = s.fault := rfl
@[simp] theorem setI_events (s : State) (w : Word) : (s.setI w).events = s.events := rfl
@[simp] theorem setI_cfg (s : State) (w : Word) : (s.setI w).cfg = s.cfg := rfl
@[simp] theorem setI_draws (s : State) (w : Word) : (s.setI w).draws = s.draws := rfl
@[simp] theorem setI_schedule (s : State) (w : Word) : (s.setI w).schedule = s.schedule := rfl
@[simp] theorem setI_getV (s : State) (w : Word) (r : Reg) : (s.setI w).getV r = s.getV r := rfl
@[simp] theorem setI_readByte (s : State) (w : Word) (a : Nat) : (s.setI w).readByte a = s.readByte a := rfl
@[simp] theorem setI_keyDown (s : State) (w : Word) (k : Reg) : (s.setI w).keyDown k = s.keyDown k := rfl

/-! ### `setPc` -/

@[simp] theorem setPc_v (s : State) (w : Word) : (s.setPc w).v = s.v := rfl
@[simp] theorem setPc_i (s : State) (w : Word) : (s.setPc w).i = s.i := rfl
@[simp] theorem setPc_pc (s : State) (w : Word) : (s.setPc w).pc = w := rfl
@[simp] theorem setPc_dt (s : State) (w : Word) : (s.setPc w).dt = s.dt := rfl
@[simp] theorem setPc_st (s : State) (w : Word) : (s.setPc w).st = s.st := rfl
@[simp] theorem setPc_stack (s : State) (w : Word) : (s.setPc w).stack = s.stack := rfl
@[simp] theorem setPc_mem (s : State) (w : Word) : (s.setPc w).mem = s.mem := rfl
@[simp] theorem setPc_screen (s : State) (w : Word) : (s.setPc w).screen = s.screen := rfl
@[simp] theorem setPc_keys (s : State) (w : Word) : (s.setPc w).keys = s.keys := rfl
@[simp] theorem setPc_fault (s : State) (w : Word) : (s.setPc w).fault = s.fault := rfl
@[simp] theorem setPc_events (s : State) (w : Word) : (s.setPc w).events = s.events := rfl
@[simp] theorem setPc_cfg (s : State) (w : Word) : (s.setPc w).cfg = s.cfg := rfl
@[simp] theorem setPc_draws (s : State) (w : Word) : (s.setPc w).draws = s.draws := rfl
@[simp] theorem setPc_schedule (s : State) (w : Word) : (s.setPc w).schedule = s.schedule := rfl
@[simp] theorem setPc_getV (s : State) (w : Word) (r : Reg) : (s.setPc w).getV r = s.getV r := rfl
@[simp] theorem setPc_readByte (s : State) (w : Word) (a : Nat) : (s.setPc w).readByte a = s.readByte a := rfl
@[simp] theorem setPc_keyDown (s : State) (w : Word) (k : Reg) : (s.setPc w).keyDown k = s.keyDown k := rfl

/-! ### `setDT` -/

@[simp] theorem setDT_v (s : State) (b : Byte) : (s.setDT b).v = s.v := rfl
@[simp] theorem setDT_i (s : State) (b : Byte) : (s.setDT b).i = s.i := rfl
@[simp] theorem setDT_pc (s : State) (b : Byte) : (s.setDT b).pc = s.pc := rfl
@[simp] theorem setDT_dt (s : State) (b : Byte) : (s.setDT b).dt = b := rfl
@[simp] theorem setDT_st (s : State) (b : Byte) : (s.setDT b).st = s.st := rfl
@[simp] theorem setDT_stack (s : State) (b : Byte) : (s.setDT b).stack = s.stack := rfl
@[simp] theorem setDT_mem (s : State) (b : Byte) : (s.setDT b).mem = s.mem := rfl
@[simp] theorem setDT_screen (s : State) (b : Byte) : (s.setDT b).screen = s.screen := rfl
@[simp] theorem setDT_keys (s : State) (b : Byte) : (s.setDT b).keys = s.keys := rfl
@[simp] theorem setDT_fault (s : State) (b : Byte) : (s.setDT b).fault = s.fault := rfl
@[simp] theorem setDT_events (s : State) (b : Byte) : (s.setDT b).events = s.events := rfl
@[simp] theorem setDT_cfg (s : State) (b : Byte) : (s.setDT b).cfg = s.cfg := rfl
@[simp] theorem setDT_draws (s : State) (b : Byte) : (s.setDT b).draws = s.draws := rfl
@[simp] theorem setDT_schedule (s : State) (b : Byte) : (s.setDT b).schedule = s.schedule := rfl
@[simp] theorem setDT_getV (s : State) (b : Byte) (r : Reg) : (s.setDT b).getV r = s.getV r := rfl
@[simp] theorem setDT_readByte (s : State) (b : Byte) (a : Nat) : (s.setDT b).readByte a = s.readByte a := rfl
@[simp] theorem setDT_keyDown (s : State) (b : Byte) (k : Reg) : (s.setDT b).keyDown k = s.keyDown k := rfl

/-! ### `setST` -/

@[simp] theorem setST_v (s : State) (b : Byte) : (s.setST b).v = s.v := rfl
@[simp] theorem setST_i (s : State) (b : Byte) : (s.setST b).i = s.i := rfl
@[simp] theorem setST_pc (s : State) (b : Byte) : (s.setST b).pc = s.pc := rfl
@[simp] theorem setST_dt (s : State) (b : Byte) : (s.setST b).dt = s.dt := rfl
@[simp] theorem setST_st (s : State) (b : Byte) : (s.setST b).st = b := rfl
@[simp] theorem setST_stack (s : State) (b : Byte) : (s.setST b).stack = s.stack := rfl
@[simp] theorem setST_mem (s : State) (b : Byte) : (s.setST b).mem = s.mem := rfl
@[simp] theorem setST_screen (s : State) (b : Byte) : (s.setST b).screen = s.screen := rfl
@[simp] theorem setST_keys (s : State) (b : Byte) : (s.setST b).keys = s.keys := rfl
@[simp] theorem setST_fault (s : State) (b : Byte) : (s.setST b).fault = s.fault := rfl
@[simp] theorem setST_events (s : State) (b : Byte) : (s.setST b).events = s.events := rfl
@[simp] theorem setST_cfg (s : State) (b : Byte) : (s.setST b).cfg = s.cfg := rfl
@[simp] theorem setST_draws (s : State) (b : Byte) : (s.setST b).draws = s.draws := rfl
@[simp] theorem setST_schedule (s : State) (b : Byte) : (s.setST b).schedule = s.schedule := rfl
@[simp] theorem setST_getV (s : State) (b : Byte) (r : Reg) : (s.setST b).getV r = s.getV r := rfl
@[simp] theorem setST_readByte (s : State) (b : Byte) (a : Nat) : (s.setST b).readByte a = s.readByte a := rfl
@[simp] theorem setST_keyDown (s : State) (b : Byte) (k : Reg) : (s.setST b).keyDown k = s.keyDown k := rfl

/-! ### `setStack` -/

@[simp] theorem setStack_v (s : State) (l : List Word) : (s.setStack l).v = s.v := rfl
@[simp] theorem setStack_i (s : State) (l : List Word) : (s.setStack l).i = s.i := rfl
@[simp] theorem setStack_pc (s : State) (l : List Word) : (s.setStack l).pc = s.pc := rfl
@[simp] theorem setStack_dt (s : State) (l : List Word) : (s.setStack l).dt = s.dt := rfl
@[simp] theorem setStack_st (s : State) (l : List Word) : (s.setStack l).st = s.st := rfl
@[simp] theorem setStack_stack (s : State) (l : List Word) : (s.setStack l).stack = l := rfl
@[simp] theorem setStack_mem (s : State) (l : List Word) : (s.setStack l).mem = s.mem := rfl
@[simp] theorem setStack_screen (s : State) (l : List Word) : (s.setStack l).screen = s.screen := rfl
@[simp] theorem setStack_keys (s : State) (l : List Word) : (s.setStack l).keys = s.keys := rfl
@[simp] theorem setStack_fault (s : State) (l : List Word) : (s.setStack l).fault = s.fault := rfl
@[simp] theorem setStack_events (s : State) (l : List Word) : (s.setStack l).events = s.events := rfl
@[simp] theorem setStack_cfg (s : State) (l : List Word) : (s.setStack l).cfg = s.cfg := rfl
@[simp] theorem setStack_draws (s : State) (l : List Word) : (s.setStack l).draws = s.draws := rfl
@[simp] theorem setStack_schedule (s : State) (l : List Word) : (s.setStack l).schedule = s.schedule := rfl
@[simp] theorem setStack_getV (s : State) (l : List Word) (r : Reg) : (s.setStack l).getV r = s.getV r := rfl
@[simp] theorem setStack_readByte (s : State) (l : List Word) (a : Nat) : (s.setStack l).readByte a = s.readByte a := rfl
@[simp] theorem setStack_keyDown (s : State) (l : List Word) (k : Reg) : (s.setStack l).keyDown k = s.keyDown k := rfl

/-! ### `setMem` -/

@[simp] theorem setMem_v (s : State) (m : Memory) : (s.setMem m).v = s.v := rfl
@[simp] theorem setMem_i (s : State) (m : Memory) : (s.setMem m).i = s.i := rfl
@[simp] theorem setMem_pc (s : State) (m : Memory) : (s.setMem m).pc = s.pc := rfl
@[simp] theorem setMem_dt (s : State) (m : Memory) : (s.setMem m).dt = s.dt := rfl
@[simp] theorem setMem_st (s : State) (m : Memory) : (s.setMem m).st = s.st := rfl
@[simp] theorem setMem_stack (s : State) (m : Memory) : (s.setMem m).stack = s.stack := rfl
@[simp] theorem setMem_mem (s : State) (m : Memory) : (s.setMem m).mem = m := rfl
@[simp] theorem setMem_screen (s : State) (m : Memory) : (s.setMem m).screen = s.screen := rfl
@[simp] theorem setMem_keys (s : State) (m : Memory) : (s.setMem m).keys = s.keys := rfl
@[simp] theorem setMem_fault (s : State) (m : Memory) : (s.setMem m).fault = s.fault := rfl
@[simp] theorem setMem_events (s : State) (m : Memory) : (s.setMem m).events = s.events := rfl
@[simp] theorem setMem_cfg (s : State) (m : Memory) : (s.setMem m).cfg = s.cfg := rfl
@[simp] theorem setMem_draws (s : State) (m : Memory) : (s.setMem m).draws = s.draws := rfl
@[simp] theorem setMem_schedule (s : State) (m : Memory) : (s.setMem m).schedule = s.schedule := rfl
@[simp] theorem setMem_getV (s : State) (m : Memory) (r : Reg) : (s.setMem m).getV r = s.getV r := rfl
@[simp] theorem setMem_keyDown (s : State) (m : Memory) (k : Reg) : (s.setMem m).keyDown k = s.keyDown k := rfl

/-! ### `setScreen` -/

@[simp] theorem setScreen_v (s : State) (sc : Screen) : (s.setScreen sc).v = s.v := rfl
@[simp] theorem setScreen_i (s : State) (sc : Screen) : (s.setScreen sc).i = s.i := rfl
@[simp] theorem setScreen_pc (s : State) (sc : Screen) : (s.setScreen sc).pc = s.pc := rfl
@[simp] theorem setScreen_dt (s : State) (sc : Screen) : (s.setScreen sc).dt = s.dt := rfl
@[simp] theorem setScreen_st (s : State) (sc : Screen) : (s.setScreen sc).st = s.st := rfl
@[simp] theorem setScreen_stack (s : State) (sc : Screen) : (s.setScreen sc).stack = s.stack := rfl
@[simp] theorem setScreen_mem (s : State) (sc : Screen) : (s.setScreen sc).mem = s.mem := rfl
@[simp] theorem setScreen_screen (s : State) (sc : Screen) : (s.setScreen sc).screen = sc := rfl
@[simp] theorem setScreen_keys (s : State) (sc : Screen) : (s.setScreen sc).keys = s.keys := rfl
@[simp] theorem setScreen_fault (s : State) (sc : Screen) : (s.setScreen sc).fault = s.fault := rfl
@[simp] theorem setScreen_events (s : State) (sc : Screen) : (s.setScreen sc).events = s.events := rfl
@[simp] theorem setScreen_cfg (s : State) (sc : Screen) : (s.setScreen sc).cfg = s.cfg := rfl
@[simp] theorem setScreen_draws (s : State) (sc : Screen) : (s.setScreen sc).draws = s.draws := rfl
@[simp] theorem setScreen_schedule (s : State) (sc : Screen) : (s.setScreen sc).schedule = s.schedule := rfl
@[simp] theorem setScreen_getV (s : State) (sc : Screen) (r : Reg) : (s.setScreen sc).getV r = s.getV r := rfl
@[simp] theorem setScreen_readByte (s : State) (sc : Screen) (a : Nat) : (s.setScreen sc).readByte a = s.readByte a := rfl
@[simp] theorem setScreen_keyDown (s : State) (sc : Screen) (k : Reg) : (s.setScreen sc).keyDown k = s.keyDown k := rfl

/-! ### `setKeys` -/

@[simp] theorem setKeys_v (s : State) (k : Vector Bool 16) : (s.setKeys k).v = s.v := rfl
@[simp] theorem setKeys_i (s : State) (k : Vector Bool 16) : (s.setKeys k).i = s.i := rfl
@[simp] theorem setKeys_pc (s : State) (k : Vector Bool 16) : (s.setKeys k).pc = s.pc := rfl
@[simp] theorem setKeys_dt (s : State) (k : Vector Bool 16) : (s.setKeys k).dt = s.dt := rfl
@[simp] theorem setKeys_st (s : State) (k : Vector Bool 16) : (s.setKeys k).st = s.st := rfl
@[simp] theorem setKeys_stack (s : State) (k : Vector Bool 16) : (s.setKeys k).stack = s.stack := rfl
@[simp] theorem setKeys_mem (s : State) (k : Vector Bool 16) : (s.setKeys k).mem = s.mem := rfl
@[simp] theorem setKeys_screen (s : State) (k : Vector Bool 16) : (s.setKeys k).screen = s.screen := rfl
@[simp] theorem setKeys_keys (s : State) (k : Vector Bool 16) : (s.setKeys k).keys = k := rfl
@[simp] theorem setKeys_fault (s : State) (k : Vector Bool 16) : (s.setKeys k).fault = s.fault := rfl
@[simp] theorem setKeys_events (s : State) (k : Vector Bool 16) : (s.setKeys k).events = s.events := rfl
@[simp] theorem setKeys_cfg (s : State) (k : Vector Bool 16) : (s.setKeys k).cfg = s.cfg := rfl
@[simp] theorem setKeys_draws (s : State) (k : Vector Bool 16) : (s.setKeys k).draws = s.draws := rfl
@[simp] theorem setKeys_schedule (s : State) (k : Vector Bool 16) : (s.setKeys k).schedule = s.schedule := rfl
@[simp] theorem setKeys_getV (s : State) (k : Vector Bool 16) (r : Reg) : (s.setKeys k).getV r = s.getV r := rfl
@[simp] theorem setKeys_readByte (s : State) (k : Vector Bool 16) (a : Nat) : (s.setKeys k).readByte a = s.readByte a := rfl

/-! ### `setFault` -/

@[simp] theorem setFault_v (s : State) (f : Option Fatal) : (s.setFault f).v = s.v := rfl
@[simp] theorem setFault_i (s : State) (f : Option Fatal) : (s.setFault f).i = s.i := rfl
@[simp] theorem setFault_pc (s : State) (f : Option Fatal) : (s.setFault f).pc = s.pc := rfl
@[simp] theorem setFault_dt (s : State) (f : Option Fatal) : (s.setFault f).dt = s.dt := rfl
@[simp] theorem setFault_st (s : State) (f : Option Fatal) : (s.setFault f).st = s.st := rfl
@[simp] theorem setFault_stack (s : State) (f : Option Fatal) : (s.setFault f).stack = s.stack := rfl
@[simp] theorem setFault_mem (s : State) (f : Option Fatal) : (s.setFault f).mem = s.mem := rfl
@[simp] theorem setFault_screen (s : State) (f : Option Fatal) : (s.setFault f).screen = s.screen := rfl
@[simp] theorem setFault_keys (s : State) (f : Option Fatal) : (s.setFault f).keys = s.keys := rfl
@[simp] theorem setFault_fault (s : State) (f : Option Fatal) : (s.setFault f).fault = f := rfl
@[simp] theorem setFault_events (s : State) (f : Option Fatal) : (s.setFault f).events = s.events := rfl
@[simp] theorem setFault_cfg (s : State) (f : Option Fatal) : (s.setFault f).cfg = s.cfg := rfl
@[simp] theorem setFault_draws (s : State) (f : Option Fatal) : (s.setFault f).draws = s.draws := rfl
@[simp] theorem setFault_schedule (s : State) (f : Option Fatal) : (s.setFault f).schedule = s.schedule := rfl
@[simp] theorem setFault_getV (s : State) (f : Option Fatal) (r : Reg) : (s.setFault f).getV r = s.getV r := rfl
@[simp] theorem setFault_readByte (s : State) (f : Option Fatal) (a : Nat) : (s.setFault f).readByte a = s.readByte a := rfl
@[simp] theorem setFault_keyDown (s : State) (f : Option Fatal) (k : Reg) : (s.setFault f).keyDown k = s.keyDown k := rfl

/-! ### `emit` -/

@[simp] theorem emit_v (s : State) (es : List Event) : (s.emit es).v = s.v := rfl
@[simp] theorem emit_i (s : State) (es : List Event) : (s.emit es).i = s.i := rfl
@[simp] theorem emit_pc (s : State) (es : List Event) : (s.emit es).pc = s.pc := rfl
@[simp] theorem emit_dt (s : State) (es : List Event) : (s.emit es).dt = s.dt := rfl
@[simp] theorem emit_st (s : State) (es : List Event) : (s.emit es).st = s.st := rfl
@[simp] theorem emit_stack (s : State) (es : List Event) : (s.emit es).stack = s.stack := rfl
@[simp] theorem emit_mem (s : State) (es : List Event) : (s.emit es).mem = s.mem := rfl
@[simp] theorem emit_screen (s : State) (es : List Event) : (s.emit es).screen = s.screen := rfl
@[simp] theorem emit_keys (s : State) (es : List Event) : (s.emit es).keys = s.keys := rfl
@[simp] theorem emit_fault (s : State) (es : List Event) : (s.emit es).fault = s.fault := rfl
@[simp] theorem emit_events (s : State) (es : List Event) : (s.emit es).events = s.events ++ es := rfl
@[simp] theorem emit_cfg (s : State) (es : List Event) : (s.emit es).cfg = s.cfg := rfl
@[simp] theorem emit_draws (s : State) (es : List Event) : (s.emit es).draws = s.draws := rfl
@[simp] theorem emit_schedule (s : State) (es : List Event) : (s.emit es).schedule = s.schedule := rfl
@[simp] theorem emit_getV (s : State) (es : List Event) (r : Reg) : (s.emit es).getV r = s.getV r := rfl
@[simp] theorem emit_readByte (s : State) (es : List Event) (a : Nat) : (s.emit es).readByte a = s.readByte a := rfl
@[simp] theorem emit_keyDown (s : State) (es : List Event) (k : Reg) : (s.emit es).keyDown k = s.keyDown k := rfl

/-! ### `countDraw` -/

@[simp] theorem countDraw_v (s : State) : (s.countDraw).v = s.v := rfl
@[simp] theorem countDraw_i (s : State) : (s.countDraw).i = s.i := rfl
@[simp] theorem countDraw_pc (s : State) : (s.countDraw).pc = s.pc := rfl
@[simp] theorem countDraw_dt (s : State) : (s.countDraw).dt = s.dt := rfl
@[simp] theorem countDraw_st (s : State) : (s.countDraw).st = s.st := rfl
@[simp] theorem countDraw_stack (s : State) : (s.countDraw).stack = s.stack := rfl
@[simp] theorem countDraw_mem (s : State) : (s.countDraw).mem = s.mem := rfl
@[simp] theorem countDraw_screen (s : State) : (s.countDraw).screen = s.screen := rfl
@[simp] theorem countDraw_keys (s : State) : (s.countDraw).keys = s.keys := rfl
@[simp] theorem countDraw_fault (s : State) : (s.countDraw).fault = s.fault := rfl
@[simp] theorem countDraw_events (s : State) : (s.countDraw).events = s.events := rfl
@[simp] theorem countDraw_cfg (s : State) : (s.countDraw).cfg = s.cfg := rfl
@[simp] theorem countDraw_draws (s : State) : (s.countDraw).draws = s.draws + 1 := rfl
@[simp] theorem countDraw_schedule (s : State) : (s.countDraw).schedule = s.schedule := rfl
@[simp] theorem countDraw_getV (s : State) (r : Reg) : (s.countDraw).getV r = s.getV r := rfl
@[simp] theorem countDraw_readByte (s : State) (a : Nat) : (s.countDraw).readByte a = s.readByte a := rfl
@[simp] theorem countDraw_keyDown (s : State) (k : Reg) : (s.countDraw).keyDown k = s.keyDown k := rfl

/-! ### `setSchedule` -/

@[simp] theorem setSchedule_v (s : State) (l : List HostOp) : (s.setSchedule l).v = s.v := rfl
@[simp] theorem setSchedule_i (s : State) (l : List HostOp) : (s.setSchedule l).i = s.i := rfl
@[simp] theorem setSchedule_pc (s : State) (l : List HostOp) : (s.setSchedule l).pc = s.pc := rfl
@[simp] theorem setSchedule_dt (s : State) (l : List HostOp) : (s.setSchedule l).dt = s.dt := rfl
@[simp] theorem setSchedule_st (s : State) (l : List HostOp) : (s.setSchedule l).st = s.st := rfl
@[simp] theorem setSchedule_stack (s : State) (l : List HostOp) : (s.setSchedule l).stack = s.stack := rfl
@[simp] theorem setSchedule_mem (s : State) (l : List HostOp) : (s.setSchedule l).mem = s.mem := rfl
@[simp] theorem setSchedule_screen (s : State) (l : List HostOp) : (s.setSchedule l).screen = s.screen := rfl
@[simp] theorem setSchedule_keys (s : State) (l : List HostOp) : (s.setSchedule l).keys = s.keys := rfl
@[simp] theorem setSchedule_fault (s : State) (l : List HostOp) : (s.setSchedule l).fault = s.fault := rfl
@[simp] theorem setSchedule_events (s : State) (l : List HostOp) : (s.setSchedule l).events = s.events := rfl
@[simp] theorem setSchedule_cfg (s : State) (l : List HostOp) : (s.setSchedule l).cfg = s.cfg := rfl
@[simp] theorem setSchedule_draws (s : State) (l : List HostOp) : (s.setSchedule l).draws = s.draws := rfl
@[simp] theorem setSchedule_schedule (s : State) (l : List HostOp) : (s.setSchedule l).schedule = l := rfl
@[simp] theorem setSchedule_getV (s : State) (l : List HostOp) (r : Reg) : (s.setSchedule l).getV r = s.getV r := rfl
@[simp] theorem setSchedule_readByte (s : State) (l : List HostOp) (a : Nat) : (s.setSchedule l).readByte a = s.readByte a := rfl
@[simp] theorem setSchedule_keyDown (s : State) (l : List HostOp) (k : Reg) : (s.setSchedule l).keyDown k = s.keyDown k := rfl

/-! ### `advance` -/

@[simp] theorem advance_v (s : State) : (s.advance).v = s.v := rfl
@[simp] theorem advance_i (s : State) : (s.advance).i = s.i := rfl
@[simp] theorem advance_pc (s : State) : (s.advance).pc = s.pc + 2 := rfl
@[simp] theorem advance_dt (s : State) : (s.advance).dt = s.dt := rfl
@[simp] theorem advance_st (s : State) : (s.advance).st = s.st := rfl
@[simp] theorem advance_stack (s : State) : (s.advance).stack = s.stack := rfl
@[simp] theorem advance_mem (s : State) : (s.advance).mem = s.mem := rfl
@[simp] theorem advance_screen (s : State) : (s.advance).screen = s.screen := rfl
@[simp] theorem advance_keys (s : State) : (s.advance).keys = s.keys := rfl
@[simp] theorem advance_fault (s : State) : (s.advance).fault = s.fault := rfl
@[simp] theorem advance_events (s : State) : (s.advance).events = s.events := rfl
@[simp] theorem advance_cfg (s : State) : (s.advance).cfg = s.cfg := rfl
@[simp] theorem advance_draws (s : State) : (s.advance).draws = s.draws := rfl
@[simp] theorem advance_schedule (s : State) : (s.advance).schedule = s.schedule := rfl
@[simp] theorem advance_getV (s : State) (r : Reg) : (s.advance).getV r = s.getV r := rfl
@[simp] theorem advance_readByte (s : State) (a : Nat) : (s.advance).readByte a = s.readByte a := rfl
@[simp] theorem advance_keyDown (s : State) (k : Reg) : (s.advance).keyDown k = s.keyDown k := rfl

/-! ### Registers, memory and the skip, read through their accessors -/

theorem setV_getV (s : State) (x r : Reg) (b : Byte) : (s.setV x b).getV r = if r = x then b else s.getV r := by
  by_cases h : r = x
  · subst h; simp [State.getV]
  · have hv : x.val ≠ r.val := fun e => h (Fin.ext e.symm)
    simp [State.getV, hv, h]

@[simp] theorem setV_getV_self (s : State) (x : Reg) (b : Byte) : (s.setV x b).getV x = b := by simp [setV_getV]

@[simp] theorem setV_getV_ne (s : State) {x r : Reg} (b : Byte) (h : r ≠ x) : (s.setV x b).getV r = s.getV r := by
  simp [setV_getV, h]

/-- VF ends holding the flag, VX the result unless X = F, and every other register is unchanged (R24). -/
theorem setResultFlag_getV (s : State) (x r : Reg) (b : Byte) (c : Bool) :
    (s.setResultFlag x b c).getV r = if r = vF then flagByte c else if r = x then b else s.getV r := by
  simp [State.setResultFlag, setV_getV]

@[simp] theorem setResultFlag_i (s : State) (x : Reg) (b : Byte) (c : Bool) : (s.setResultFlag x b c).i = s.i := rfl
@[simp] theorem setResultFlag_pc (s : State) (x : Reg) (b : Byte) (c : Bool) : (s.setResultFlag x b c).pc = s.pc := rfl
@[simp] theorem setResultFlag_dt (s : State) (x : Reg) (b : Byte) (c : Bool) : (s.setResultFlag x b c).dt = s.dt := rfl
@[simp] theorem setResultFlag_st (s : State) (x : Reg) (b : Byte) (c : Bool) : (s.setResultFlag x b c).st = s.st := rfl
@[simp] theorem setResultFlag_stack (s : State) (x : Reg) (b : Byte) (c : Bool) : (s.setResultFlag x b c).stack = s.stack := rfl
@[simp] theorem setResultFlag_mem (s : State) (x : Reg) (b : Byte) (c : Bool) : (s.setResultFlag x b c).mem = s.mem := rfl
@[simp] theorem setResultFlag_screen (s : State) (x : Reg) (b : Byte) (c : Bool) : (s.setResultFlag x b c).screen = s.screen := rfl
@[simp] theorem setResultFlag_keys (s : State) (x : Reg) (b : Byte) (c : Bool) : (s.setResultFlag x b c).keys = s.keys := rfl
@[simp] theorem setResultFlag_fault (s : State) (x : Reg) (b : Byte) (c : Bool) : (s.setResultFlag x b c).fault = s.fault := rfl
@[simp] theorem setResultFlag_events (s : State) (x : Reg) (b : Byte) (c : Bool) : (s.setResultFlag x b c).events = s.events := rfl
@[simp] theorem setResultFlag_cfg (s : State) (x : Reg) (b : Byte) (c : Bool) : (s.setResultFlag x b c).cfg = s.cfg := rfl
@[simp] theorem setResultFlag_draws (s : State) (x : Reg) (b : Byte) (c : Bool) : (s.setResultFlag x b c).draws = s.draws := rfl
@[simp] theorem setResultFlag_schedule (s : State) (x : Reg) (b : Byte) (c : Bool) : (s.setResultFlag x b c).schedule = s.schedule := rfl

@[simp] theorem skipWhen_v (c : Bool) (s : State) : (skipWhen c s).v = s.v := rfl
@[simp] theorem skipWhen_i (c : Bool) (s : State) : (skipWhen c s).i = s.i := rfl
@[simp] theorem skipWhen_dt (c : Bool) (s : State) : (skipWhen c s).dt = s.dt := rfl
@[simp] theorem skipWhen_st (c : Bool) (s : State) : (skipWhen c s).st = s.st := rfl
@[simp] theorem skipWhen_stack (c : Bool) (s : State) : (skipWhen c s).stack = s.stack := rfl
@[simp] theorem skipWhen_mem (c : Bool) (s : State) : (skipWhen c s).mem = s.mem := rfl
@[simp] theorem skipWhen_screen (c : Bool) (s : State) : (skipWhen c s).screen = s.screen := rfl
@[simp] theorem skipWhen_keys (c : Bool) (s : State) : (skipWhen c s).keys = s.keys := rfl
@[simp] theorem skipWhen_fault (c : Bool) (s : State) : (skipWhen c s).fault = s.fault := rfl
@[simp] theorem skipWhen_events (c : Bool) (s : State) : (skipWhen c s).events = s.events := rfl
@[simp] theorem skipWhen_cfg (c : Bool) (s : State) : (skipWhen c s).cfg = s.cfg := rfl
@[simp] theorem skipWhen_draws (c : Bool) (s : State) : (skipWhen c s).draws = s.draws := rfl
@[simp] theorem skipWhen_schedule (c : Bool) (s : State) : (skipWhen c s).schedule = s.schedule := rfl
@[simp] theorem skipWhen_pc (c : Bool) (s : State) : (skipWhen c s).pc = if c then s.pc + 4 else s.pc + 2 := rfl
@[simp] theorem skipWhen_getV (c : Bool) (s : State) (r : Reg) : (skipWhen c s).getV r = s.getV r := rfl

@[simp] theorem writeBytes_v (s : State) (a : Nat) (bs : List Byte) : (s.writeBytes a bs).v = s.v := rfl
@[simp] theorem writeBytes_i (s : State) (a : Nat) (bs : List Byte) : (s.writeBytes a bs).i = s.i := rfl
@[simp] theorem writeBytes_pc (s : State) (a : Nat) (bs : List Byte) : (s.writeBytes a bs).pc = s.pc := rfl
@[simp] theorem writeBytes_dt (s : State) (a : Nat) (bs : List Byte) : (s.writeBytes a bs).dt = s.dt := rfl
@[simp] theorem writeBytes_st (s : State) (a : Nat) (bs : List Byte) : (s.writeBytes a bs).st = s.st := rfl
@[simp] theorem writeBytes_stack (s : State) (a : Nat) (bs : List Byte) : (s.writeBytes a bs).stack = s.stack := rfl
@[simp] theorem writeBytes_screen (s : State) (a : Nat) (bs : List Byte) : (s.writeBytes a bs).screen = s.screen := rfl
@[simp] theorem writeBytes_keys (s : State) (a : Nat) (bs : List Byte) : (s.writeBytes a bs).keys = s.keys := rfl
@[simp] theorem writeBytes_fault (s : State) (a : Nat) (bs : List Byte) : (s.writeBytes a bs).fault = s.fault := rfl
@[simp] theorem writeBytes_events (s : State) (a : Nat) (bs : List Byte) : (s.writeBytes a bs).events = s.events := rfl
@[simp] theorem writeBytes_cfg (s : State) (a : Nat) (bs : List Byte) : (s.writeBytes a bs).cfg = s.cfg := rfl
@[simp] theorem writeBytes_draws (s : State) (a : Nat) (bs : List Byte) : (s.writeBytes a bs).draws = s.draws := rfl
@[simp] theorem writeBytes_schedule (s : State) (a : Nat) (bs : List Byte) : (s.writeBytes a bs).schedule = s.schedule := rfl
@[simp] theorem writeBytes_mem (s : State) (a : Nat) (bs : List Byte) :
    (s.writeBytes a bs).mem = memWriteList s.cfg.font s.mem a bs := rfl
@[simp] theorem writeBytes_getV (s : State) (a : Nat) (bs : List Byte) (r : Reg) :
    (s.writeBytes a bs).getV r = s.getV r := rfl

end Sys2Proof.Machine
end

