-- ==== Sys2Proof/Laws/Ops.lean ====
section
/-! SUPPORT. One lemma per shared operation: everything it can do, to be cited instead of unfolding it. -/

namespace Sys2Proof.Machine

/-! ### The call stack -/

/-- The stack is full exactly when it holds STACK_DEPTH entries; with no limit it never is (R31). -/
theorem stackFull_iff (depth : StackDepth) (l : List Word) :
    stackFull depth l = true ↔ ∃ limit positive, depth = .bounded limit positive ∧ l.length = limit := by
  cases l with
  | nil =>
    simp only [stackFull, Bool.false_eq_true, List.length_nil, false_iff, not_exists, not_and]
    rintro limit hpos - rfl
    exact absurd hpos (Nat.lt_irrefl 0)
  | cons w ws =>
    cases depth with
    | unbounded => simp [stackFull]
    | bounded limit positive =>
      simp only [stackFull, decide_eq_true_eq, StackDepth.bounded.injEq]
      exact ⟨fun h => ⟨limit, positive, rfl, h⟩, by rintro ⟨_, _, rfl, h⟩; exact h⟩

/-! ### The data range check -/

theorem dataInRange_iff (s : State) (n : Nat) :
    dataInRange s n = true ↔ s.i.toNat ≤ 0xFFF ∧ s.i.toNat + n ≤ 0x1000 := by
  rw [dataInRange, Bool.and_eq_true, decide_eq_true_eq, decide_eq_true_eq, dataAddr, memSize]
  omega

/-- A checked transfer either takes its whole effect, or raises DataOutOfRange and has none (R56). -/
theorem withDataRange_eq (n : Nat) (s e : State) :
    withDataRange n s e =
      .next (if dataInRange s n then e else s.setFault (some (.dataOutOfRange s.pc (lowestOffending s)))) := by
  unfold withDataRange State.raise
  split <;> rfl

/-! ### Keys -/

theorem keyOperand_eq_some {b : Byte} {k : Reg} : keyOperand b = some k ↔ b.toNat = k.val := by
  unfold keyOperand
  split
  · simp [Fin.ext_iff]
  · rename_i h
    simp only [reduceCtorEq, false_iff]
    omega

theorem keyOperand_eq_none {b : Byte} : keyOperand b = none ↔ 0x0F < b.toNat := by
  unfold keyOperand
  split <;> simp <;> omega

/-- A skip on a key that V[x] names never faults (R135, R136). -/
theorem skipOnKey_named {s : State} {x k : Reg} (wanted : Bool) (h : (s.getV x).toNat = k.val) :
    skipOnKey x wanted s = .next (skipWhen (s.keyDown k == wanted) s) := by
  unfold skipOnKey
  rw [keyOperand_eq_some.mpr h]

/-- A skip on a key always faults when V[x] names none (R135, R136). -/
theorem skipOnKey_unnamed {s : State} {x : Reg} (wanted : Bool) (h : 0x0F < (s.getV x).toNat) :
    skipOnKey x wanted s = .next (s.setFault (some (.keyIndexOutOfRange s.pc (s.getV x)))) := by
  unfold skipOnKey
  rw [keyOperand_eq_none.mpr h]
  rfl

theorem mem_allKeys (k : Reg) : k ∈ allKeys := by
  revert k
  decide

/-- The lowest key down: it is down and none below it is (R223). -/
theorem firstPressed_eq_some {s : State} {k : Reg} :
    firstPressed s = some k ↔ s.keyDown k = true ∧ ∀ j, j < k → s.keyDown j = false := by
  have hsort : allKeys.Pairwise (· < ·) := by decide
  unfold firstPressed
  rw [List.find?_eq_some_iff_append]
  constructor
  · rintro ⟨hk, as, bs, hab, hnot⟩
    refine ⟨hk, fun j hj => ?_⟩
    have hmem : j ∈ as := by
      have hj' := mem_allKeys j
      rw [hab] at hj' hsort
      rcases List.mem_append.mp hj' with h | h
      · exact h
      · have hp := (List.pairwise_cons.mp (List.pairwise_append.mp hsort).2.1).1
        rcases List.mem_cons.mp h with rfl | h
        · exact absurd hj (lt_irrefl _)
        · exact absurd (hp j h) (not_lt.mpr hj.le)
    simpa using hnot j hmem
  · rintro ⟨hk, hlow⟩
    refine ⟨hk, ?_⟩
    obtain ⟨as, bs, hab⟩ := List.append_of_mem (mem_allKeys k)
    refine ⟨as, bs, hab, fun j hj => ?_⟩
    rw [hab] at hsort
    have := (List.pairwise_append.mp hsort).2.2 j hj k List.mem_cons_self
    simp [hlow j this]

theorem firstPressed_eq_none {s : State} : firstPressed s = none ↔ ∀ k, s.keyDown k = false := by
  unfold firstPressed
  rw [List.find?_eq_none]
  constructor
  · intro h k
    simpa using h k (mem_allKeys k)
  · intro h k _
    simp [h k]

/-! ### Register transfers -/

@[simp] theorem regValues_length (s : State) (x : Reg) : (regValues s x).length = x.val + 1 := by
  have : allKeys.length = 16 := rfl
  simp only [regValues, List.length_map, List.length_take, this]
  omega

theorem allKeys_getElem_fin : ∀ k : Reg, allKeys[k.val]'k.isLt = k := by decide

theorem allKeys_getElem (k : Nat) (hk : k < allKeys.length) : allKeys[k] = (⟨k, hk⟩ : Reg) :=
  allKeys_getElem_fin ⟨k, hk⟩

/-- Byte `k` of the registers that FX55 stores is V[k] (R185). -/
theorem regValues_getElem (s : State) (x : Reg) (k : Nat) (hk : k < (regValues s x).length) :
    (regValues s x)[k] = s.getV ⟨k, by simp at hk; omega⟩ := by
  simp [regValues, allKeys_getElem]

/-- The registers after a load from V0 on: register `r` holds byte `r`, and one past the last byte is unchanged. -/
theorem loadRegsFrom_getV (s : State) (bs : List Byte) (r : Reg) :
    (loadRegsFrom s allKeys bs).getV r = (bs[r.val]?).getD (s.getV r) := by
  have gen : ∀ (rs : List Reg) (bs : List Byte) (s : State) (i : Nat), rs.Nodup →
      ∀ h : i < rs.length, (loadRegsFrom s rs bs).getV rs[i] = (bs[i]?).getD (s.getV rs[i]) := by
    intro rs
    induction rs with
    | nil => intro bs s i _ h; simp at h
    | cons q rs ih =>
      intro bs s i hn h
      obtain ⟨hq, hn⟩ := List.nodup_cons.mp hn
      have keep : ∀ (rs : List Reg) (bs : List Byte) (s : State) (q : Reg), q ∉ rs →
          (loadRegsFrom s rs bs).getV q = s.getV q := by
        intro rs
        induction rs with
        | nil => intro bs s q _; simp [loadRegsFrom]
        | cons p rs ih =>
          intro bs s q hq
          cases bs with
          | nil => simp [loadRegsFrom]
          | cons b bs =>
            simp only [List.mem_cons, not_or] at hq
            rw [loadRegsFrom, ih _ _ _ hq.2, setV_getV_ne _ _ hq.1]
      cases bs with
      | nil => simp [loadRegsFrom]
      | cons b bs =>
        cases i with
        | zero => simp [loadRegsFrom, keep _ _ _ _ hq]
        | succ i =>
          have h' : i < rs.length := by simpa using h
          simp only [loadRegsFrom, List.getElem_cons_succ, ih bs _ i hn h', List.getElem?_cons_succ]
          rw [setV_getV_ne]
          exact fun e => hq (e ▸ List.getElem_mem h')
  have h16 : r.val < allKeys.length := r.isLt
  have := gen allKeys bs s r.val (by decide) h16
  rwa [allKeys_getElem] at this

/-- A load into registers changes no element but V. -/
theorem loadRegsFrom_frame (s : State) (rs : List Reg) (bs : List Byte) :
    loadRegsFrom s rs bs = { s with v := (loadRegsFrom s rs bs).v } := by
  induction rs generalizing s bs with
  | nil => rfl
  | cons r rs ih =>
    cases bs with
    | nil => rfl
    | cons b bs => rw [loadRegsFrom, ih]; rfl

@[simp] theorem loadRegsFrom_i (s : State) (rs : List Reg) (bs : List Byte) :
    (loadRegsFrom s rs bs).i = s.i := by rw [loadRegsFrom_frame]

@[simp] theorem loadRegsFrom_pc (s : State) (rs : List Reg) (bs : List Byte) :
    (loadRegsFrom s rs bs).pc = s.pc := by rw [loadRegsFrom_frame]

@[simp] theorem loadRegsFrom_dt (s : State) (rs : List Reg) (bs : List Byte) :
    (loadRegsFrom s rs bs).dt = s.dt := by rw [loadRegsFrom_frame]

@[simp] theorem loadRegsFrom_st (s : State) (rs : List Reg) (bs : List Byte) :
    (loadRegsFrom s rs bs).st = s.st := by rw [loadRegsFrom_frame]

@[simp] theorem loadRegsFrom_stack (s : State) (rs : List Reg) (bs : List Byte) :
    (loadRegsFrom s rs bs).stack = s.stack := by rw [loadRegsFrom_frame]

@[simp] theorem loadRegsFrom_mem (s : State) (rs : List Reg) (bs : List Byte) :
    (loadRegsFrom s rs bs).mem = s.mem := by rw [loadRegsFrom_frame]

@[simp] theorem loadRegsFrom_screen (s : State) (rs : List Reg) (bs : List Byte) :
    (loadRegsFrom s rs bs).screen = s.screen := by rw [loadRegsFrom_frame]

@[simp] theorem loadRegsFrom_keys (s : State) (rs : List Reg) (bs : List Byte) :
    (loadRegsFrom s rs bs).keys = s.keys := by rw [loadRegsFrom_frame]

@[simp] theorem loadRegsFrom_fault (s : State) (rs : List Reg) (bs : List Byte) :
    (loadRegsFrom s rs bs).fault = s.fault := by rw [loadRegsFrom_frame]

@[simp] theorem loadRegsFrom_events (s : State) (rs : List Reg) (bs : List Byte) :
    (loadRegsFrom s rs bs).events = s.events := by rw [loadRegsFrom_frame]

@[simp] theorem loadRegsFrom_cfg (s : State) (rs : List Reg) (bs : List Byte) :
    (loadRegsFrom s rs bs).cfg = s.cfg := by rw [loadRegsFrom_frame]

@[simp] theorem loadRegsFrom_draws (s : State) (rs : List Reg) (bs : List Byte) :
    (loadRegsFrom s rs bs).draws = s.draws := by rw [loadRegsFrom_frame]

@[simp] theorem loadRegsFrom_schedule (s : State) (rs : List Reg) (bs : List Byte) :
    (loadRegsFrom s rs bs).schedule = s.schedule := by rw [loadRegsFrom_frame]

end Sys2Proof.Machine
end

