-- ==== Sys2Proof/Laws/Exec.lean ====
section
/-! SUPPORT. What every instruction can do to the `fault` element, once for all of them. -/

namespace Sys2Proof.Machine

/-- An instruction that answers a next state raised one fatal condition at its own PC, with no other effect, or left
`fault` as it was (R13, R242). -/
theorem exec_raises_or_keeps {i : Instr} {s t : State} (h : exec i s = .next t) :
    (∃ f, t = s.setFault (some f) ∧ fatalPc f = s.pc) ∨ t.fault = s.fault := by
  cases i with
  | ret =>
    simp only [exec, execRet] at h
    split at h <;> cases h
    · exact .inl ⟨_, rfl, rfl⟩
    · exact .inr rfl
  | call nnn =>
    simp only [exec, execCall] at h
    split at h <;> cases h
    · exact .inl ⟨_, rfl, rfl⟩
    · exact .inr rfl
  | skp x | sknp x =>
    simp only [exec, execSkp, execSknp, skipOnKey] at h
    split at h <;> cases h
    · exact .inl ⟨_, rfl, rfl⟩
    · exact .inr rfl
  | waitKey x =>
    simp only [exec, execWaitKey] at h
    split at h <;> cases h <;> exact .inr rfl
  | drw x y n | bcd x | storeRegs x | loadRegs x =>
    simp only [exec, execDrw, execBcd, execStoreRegs, execLoadRegs, withDataRange_eq] at h
    split at h <;> cases h
    · exact .inr (by simp)
    · exact .inl ⟨_, rfl, rfl⟩
  | _ => cases h; exact .inr rfl

end Sys2Proof.Machine
end

