-- ==== Sys2Proof/Laws/PerInstr.lean ====
section
/-! SUPPORT. One fact about every instruction: the word it encodes to holds its row's fixed bits (spec/opcode_table.json,
"match" and "mask"), whatever its operands. -/

namespace Sys2Proof.Laws

/-- The "match" of an instruction's row. -/
def rowMatch : Instr → Word
  | .cls => 0x00E0 | .ret => 0x00EE | .jp _ => 0x1000 | .call _ => 0x2000 | .seImm _ _ => 0x3000
  | .sneImm _ _ => 0x4000 | .seReg _ _ => 0x5000 | .ldImm _ _ => 0x6000 | .addImm _ _ => 0x7000
  | .ldReg _ _ => 0x8000 | .orReg _ _ => 0x8001 | .andReg _ _ => 0x8002 | .xorReg _ _ => 0x8003
  | .addReg _ _ => 0x8004 | .subReg _ _ => 0x8005 | .shrReg _ _ => 0x8006 | .subnReg _ _ => 0x8007
  | .shlReg _ _ => 0x800E | .sneReg _ _ => 0x9000 | .ldI _ => 0xA000 | .jpV0 _ => 0xB000 | .rnd _ _ => 0xC000
  | .drw _ _ _ => 0xD000 | .skp _ => 0xE09E | .sknp _ => 0xE0A1 | .ldDT _ => 0xF007 | .waitKey _ => 0xF00A
  | .setDT _ => 0xF015 | .setST _ => 0xF018 | .addI _ => 0xF01E | .ldFont _ => 0xF029 | .bcd _ => 0xF033
  | .storeRegs _ => 0xF055 | .loadRegs _ => 0xF065

/-- The "mask" of an instruction's row. -/
def rowMask : Instr → Word
  | .cls | .ret => 0xFFFF
  | .jp _ | .call _ | .seImm _ _ | .sneImm _ _ | .ldImm _ _ | .addImm _ _ | .ldI _ | .jpV0 _ | .rnd _ _
  | .drw _ _ _ => 0xF000
  | .seReg _ _ | .ldReg _ _ | .orReg _ _ | .andReg _ _ | .xorReg _ _ | .addReg _ _ | .subReg _ _ | .shrReg _ _
  | .subnReg _ _ | .shlReg _ _ | .sneReg _ _ => 0xF00F
  | .skp _ | .sknp _ | .ldDT _ | .waitKey _ | .setDT _ | .setST _ | .addI _ | .ldFont _ | .bcd _ | .storeRegs _
  | .loadRegs _ => 0xF0FF

/-! ### Masking a format leaves its fixed fields -/

theorem encNNN_op (op : BitVec 4) (nnn : Addr12) : encNNN op nnn &&& 0xF000#16 = encNNN op 0 := by
  apply BitVec.eq_of_getLsbD_eq
  intro i hi
  rw [BitVec.getLsbD_and, getLsbD_encNNN, getLsbD_encNNN]
  interval_cases i <;> simp

theorem encXNN_op (op : BitVec 4) (x : Reg) (nn : Byte) : encXNN op x nn &&& 0xF000#16 = encXNN op 0 0 := by
  apply BitVec.eq_of_getLsbD_eq
  intro i hi
  rw [BitVec.getLsbD_and, getLsbD_encXNN, getLsbD_encXNN]
  interval_cases i <;> simp

theorem encXNN_selector (op : BitVec 4) (x : Reg) (nn : Byte) : encXNN op x nn &&& 0xF0FF#16 = encXNN op 0 nn := by
  apply BitVec.eq_of_getLsbD_eq
  intro i hi
  rw [BitVec.getLsbD_and, getLsbD_encXNN, getLsbD_encXNN]
  interval_cases i <;> simp

theorem encXYN_op (op : BitVec 4) (x y : Reg) (n : BitVec 4) : encXYN op x y n &&& 0xF000#16 = encXYN op 0 0 0 := by
  apply BitVec.eq_of_getLsbD_eq
  intro i hi
  rw [BitVec.getLsbD_and, getLsbD_encXYN, getLsbD_encXYN]
  interval_cases i <;> simp

theorem encXYN_selector (op : BitVec 4) (x y : Reg) (n : BitVec 4) :
    encXYN op x y n &&& 0xF00F#16 = encXYN op 0 0 n := by
  apply BitVec.eq_of_getLsbD_eq
  intro i hi
  rw [BitVec.getLsbD_and, getLsbD_encXYN, getLsbD_encXYN]
  interval_cases i <;> simp

end Sys2Proof.Laws

namespace Sys2Proof.Laws.RowBits

/-- The encoded word holds the row's fixed bits. -/
def Statement (i : Instr) : Prop := encodeWord i &&& rowMask i = rowMatch i

theorem cls : Statement .cls := rfl
theorem ret : Statement .ret := rfl
theorem jp (nnn : Addr12) : Statement (.jp nnn) := encNNN_op 0x1#4 nnn
theorem call (nnn : Addr12) : Statement (.call nnn) := encNNN_op 0x2#4 nnn
theorem seImm (x : Reg) (nn : Byte) : Statement (.seImm x nn) := encXNN_op 0x3#4 x nn
theorem sneImm (x : Reg) (nn : Byte) : Statement (.sneImm x nn) := encXNN_op 0x4#4 x nn
theorem seReg (x y : Reg) : Statement (.seReg x y) := encXYN_selector 0x5#4 x y 0x0#4
theorem ldImm (x : Reg) (nn : Byte) : Statement (.ldImm x nn) := encXNN_op 0x6#4 x nn
theorem addImm (x : Reg) (nn : Byte) : Statement (.addImm x nn) := encXNN_op 0x7#4 x nn
theorem ldReg (x y : Reg) : Statement (.ldReg x y) := encXYN_selector 0x8#4 x y 0x0#4
theorem orReg (x y : Reg) : Statement (.orReg x y) := encXYN_selector 0x8#4 x y 0x1#4
theorem andReg (x y : Reg) : Statement (.andReg x y) := encXYN_selector 0x8#4 x y 0x2#4
theorem xorReg (x y : Reg) : Statement (.xorReg x y) := encXYN_selector 0x8#4 x y 0x3#4
theorem addReg (x y : Reg) : Statement (.addReg x y) := encXYN_selector 0x8#4 x y 0x4#4
theorem subReg (x y : Reg) : Statement (.subReg x y) := encXYN_selector 0x8#4 x y 0x5#4
theorem shrReg (x y : Reg) : Statement (.shrReg x y) := encXYN_selector 0x8#4 x y 0x6#4
theorem subnReg (x y : Reg) : Statement (.subnReg x y) := encXYN_selector 0x8#4 x y 0x7#4
theorem shlReg (x y : Reg) : Statement (.shlReg x y) := encXYN_selector 0x8#4 x y 0xE#4
theorem sneReg (x y : Reg) : Statement (.sneReg x y) := encXYN_selector 0x9#4 x y 0x0#4
theorem ldI (nnn : Addr12) : Statement (.ldI nnn) := encNNN_op 0xA#4 nnn
theorem jpV0 (nnn : Addr12) : Statement (.jpV0 nnn) := encNNN_op 0xB#4 nnn
theorem rnd (x : Reg) (nn : Byte) : Statement (.rnd x nn) := encXNN_op 0xC#4 x nn
theorem drw (x y : Reg) (n : Nat) : Statement (.drw x y n) := encXYN_op 0xD#4 x y (BitVec.ofNat 4 n)
theorem skp (x : Reg) : Statement (.skp x) := encXNN_selector 0xE#4 x 0x9E#8
theorem sknp (x : Reg) : Statement (.sknp x) := encXNN_selector 0xE#4 x 0xA1#8
theorem ldDT (x : Reg) : Statement (.ldDT x) := encXNN_selector 0xF#4 x 0x07#8
theorem waitKey (x : Reg) : Statement (.waitKey x) := encXNN_selector 0xF#4 x 0x0A#8
theorem setDT (x : Reg) : Statement (.setDT x) := encXNN_selector 0xF#4 x 0x15#8
theorem setST (x : Reg) : Statement (.setST x) := encXNN_selector 0xF#4 x 0x18#8
theorem addI (x : Reg) : Statement (.addI x) := encXNN_selector 0xF#4 x 0x1E#8
theorem ldFont (x : Reg) : Statement (.ldFont x) := encXNN_selector 0xF#4 x 0x29#8
theorem bcd (x : Reg) : Statement (.bcd x) := encXNN_selector 0xF#4 x 0x33#8
theorem storeRegs (x : Reg) : Statement (.storeRegs x) := encXNN_selector 0xF#4 x 0x55#8
theorem loadRegs (x : Reg) : Statement (.loadRegs x) := encXNN_selector 0xF#4 x 0x65#8

end Sys2Proof.Laws.RowBits
end

