-- ==== Sys2Proof/Laws/Step.lean ====
section
/-! SUPPORT. Next and the step, said once: one equation for each way a Next can go, and the inversion lemmas that later
proofs start from. -/

namespace Sys2Proof.Machine

/-- Decoding the fetched bytes is decoding the fetched word (R60, R81). -/
theorem decode_fetchBytes (s : State) : decode (fetchBytes s) = (decodeWord (fetchWord s)).map fun i => (i, []) :=
  decode_pair (s.readByte s.pc.toNat) (s.readByte (s.pc.toNat + 1)) []

theorem fetchInRange_iff (s : State) : fetchInRange s = true ↔ s.pc.toNat ≤ 0x0FFE := by
  rw [fetchInRange, decide_eq_true_eq]

/-! ### The four ways of Next -/

theorem next_faulted {s : State} {f : Fatal} (h : s.fault = some f) : next s = .fault (.halted f) := by
  rw [next, h]

theorem next_running {s : State} (h : s.fault = none) : next s = fetchExecute s := by
  rw [next, h]

theorem next_outOfRange {s : State} (h : s.fault = none) (hp : 0x0FFE < s.pc.toNat) :
    next s = .next (s.setFault (some (.fetchOutOfRange s.pc))) := by
  have : ¬ fetchInRange s = true := by rw [fetchInRange_iff]; omega
  rw [next_running h, fetchExecute, if_neg this, State.raise]

theorem next_illegal {s : State} {r : DecodeReject} (h : s.fault = none) (hp : s.pc.toNat ≤ 0x0FFE)
    (hw : decodeWord (fetchWord s) = .error r) :
    next s = .next (s.setFault (some (.decodeError s.pc (fetchWord s)))) := by
  rw [next_running h, fetchExecute, if_pos ((fetchInRange_iff s).mpr hp), decodeExecute, decode_fetchBytes, hw]
  rfl

theorem next_legal {s : State} {i : Instr} (h : s.fault = none) (hp : s.pc.toNat ≤ 0x0FFE)
    (hw : decodeWord (fetchWord s) = .ok i) : next s = exec i s := by
  rw [next_running h, fetchExecute, if_pos ((fetchInRange_iff s).mpr hp), decodeExecute, decode_fetchBytes, hw]
  rfl

/-- Everything a Next that answers a state can have done. -/
theorem next_cases {s t : State} (h : next s = .next t) :
    s.fault = none ∧
      ((0x0FFE < s.pc.toNat ∧ t = s.setFault (some (.fetchOutOfRange s.pc))) ∨
       (s.pc.toNat ≤ 0x0FFE ∧ (∃ r, decodeWord (fetchWord s) = .error r) ∧
          t = s.setFault (some (.decodeError s.pc (fetchWord s)))) ∨
       (s.pc.toNat ≤ 0x0FFE ∧ ∃ i, decodeWord (fetchWord s) = .ok i ∧ exec i s = .next t)) := by
  cases hf : s.fault with
  | some f => rw [next_faulted hf] at h; cases h
  | none =>
    refine ⟨rfl, ?_⟩
    by_cases hp : s.pc.toNat ≤ 0x0FFE
    · cases hw : decodeWord (fetchWord s) with
      | error r =>
        rw [next_illegal hf hp hw] at h
        cases h
        exact .inr (.inl ⟨hp, ⟨r, rfl⟩, rfl⟩)
      | ok i =>
        rw [next_legal hf hp hw] at h
        exact .inr (.inr ⟨hp, i, rfl, h⟩)
    · rw [next_outOfRange hf (by omega)] at h
      cases h
      exact .inl ⟨by omega, rfl⟩

/-! ### The step -/

theorem step_next {s : State} (h : s.schedule = []) : step s = next s := by
  rw [step, h]
  rfl

theorem step_listed {s : State} {op : HostOp} {ops : List HostOp} (h : s.schedule = op :: ops) :
    step s = hostStep op (s.setSchedule ops) := by
  rw [step, h]

/-- Everything a step can have done: a Next, asked for or by default, or the schedule's first operation. -/
theorem step_cases (s : State) :
    (s.schedule = [] ∧ step s = next s) ∨
      ∃ op ops, s.schedule = op :: ops ∧ step s = hostStep op (s.setSchedule ops) := by
  cases h : s.schedule with
  | nil => exact .inl ⟨rfl, step_next h⟩
  | cons op ops => exact .inr ⟨op, ops, rfl, step_listed h⟩

end Sys2Proof.Machine
end

