-- ==== Sys2Proof/Laws/Screen.lean ====
section
/-! SUPPORT. The laws of the framebuffer and of the draw primitive (R200 to R202). -/

namespace Sys2Proof.Machine

theorem getPixel_setPixel (sc : Screen) (p q : Pixel) (b : Bool) :
    getPixel (setPixel sc p b) q = if q = p then b else getPixel sc q := by
  obtain ⟨px, py⟩ := p
  obtain ⟨qx, qy⟩ := q
  simp only [getPixel, setPixel, Vector.getElem_set, Prod.mk.injEq]
  by_cases hx : px.val = qx.val
  · have hx' : qx = px := Fin.ext hx.symm
    subst hx'
    by_cases hy : py.val = qy.val
    · have hy' : qy = py := Fin.ext hy.symm
      simp [hy']
    · have hy' : qy ≠ py := fun e => hy (congrArg Fin.val e.symm)
      simp [hy, hy']
  · have hx' : qx ≠ px := fun e => hx (congrArg Fin.val e.symm)
    simp [hx, hx']

@[simp] theorem getPixel_blank (p : Pixel) : getPixel blankScreen p = false := by
  simp [getPixel, blankScreen]

/-- Two screens are equal when every pixel is. -/
theorem screen_ext {a b : Screen} (h : ∀ p, getPixel a p = getPixel b p) : a = b := by
  apply Vector.ext
  intro x hx
  apply Vector.ext
  intro y hy
  exact h (⟨x, hx⟩, ⟨y, hy⟩)

/-- Toggling a list of places that holds each place once: the listed pixels are inverted and no other changes. -/
theorem togglePixels_screen {ps : List Pixel} (hn : ps.Nodup) (sc : Screen) (p : Pixel) :
    getPixel (togglePixels sc ps).screen p = if p ∈ ps then !getPixel sc p else getPixel sc p := by
  induction ps generalizing sc with
  | nil => simp [togglePixels]
  | cons q ps ih =>
    obtain ⟨hq, hn⟩ := List.nodup_cons.mp hn
    simp only [togglePixels, ih hn, getPixel_setPixel, List.mem_cons]
    by_cases h1 : p = q
    · subst h1; simp [hq]
    · simp [h1]

/-- The draw collides exactly when one of the listed places was set before it (R201). -/
theorem togglePixels_collision {ps : List Pixel} (hn : ps.Nodup) (sc : Screen) :
    (togglePixels sc ps).collision = true ↔ ∃ p ∈ ps, getPixel sc p = true := by
  induction ps generalizing sc with
  | nil => simp [togglePixels]
  | cons q ps ih =>
    obtain ⟨hq, hn⟩ := List.nodup_cons.mp hn
    have hne : ∀ p ∈ ps, p ≠ q := fun p hp e => hq (e ▸ hp)
    simp only [togglePixels, Bool.or_eq_true, ih hn, List.mem_cons, exists_eq_or_imp, getPixel_setPixel]
    refine or_congr Iff.rfl (exists_congr fun p => and_congr_right fun hp => ?_)
    simp [hne p hp]

/-- The notifications of a draw: one for each listed place, in order, with the pixel's new value (R200). -/
theorem togglePixels_events {ps : List Pixel} (hn : ps.Nodup) (sc : Screen) :
    (togglePixels sc ps).events = ps.map fun p => .pixelChanged p.1 p.2 (!getPixel sc p) := by
  induction ps generalizing sc with
  | nil => rfl
  | cons q ps ih =>
    obtain ⟨hq, hn⟩ := List.nodup_cons.mp hn
    simp only [togglePixels, ih hn, List.map_cons, List.cons.injEq, true_and]
    refine List.map_congr_left fun p hp => ?_
    have : p ≠ q := fun e => hq (e ▸ hp)
    simp [getPixel_setPixel, this]

theorem mem_rowBits {b : Byte} {i : Nat} : i ∈ rowBits b ↔ i < 8 ∧ b.getLsbD (7 - i) = true := by
  simp only [rowBits, List.mem_filter, and_congr_left_iff]
  intro _
  simp
  omega

/-- The places a sprite's 1-bits land on. -/
theorem mem_spritePixels {cx cy : Byte} {rows : List Byte} {j : Nat} {p : Pixel} :
    p ∈ spritePixels cx cy j rows ↔
      ∃ k, ∃ hk : k < rows.length, ∃ i, i < 8 ∧ rows[k].getLsbD (7 - i) = true ∧ p = spritePixel cx cy (j + k) i := by
  induction rows generalizing j with
  | nil => simp [spritePixels]
  | cons b rows ih =>
    simp only [spritePixels, List.mem_append, List.mem_map, mem_rowBits, ih]
    constructor
    · rintro (⟨i, ⟨hi, hb⟩, rfl⟩ | ⟨k, hk, i, hi, hb, rfl⟩)
      · exact ⟨0, by simp, i, hi, by simpa using hb, by simp⟩
      · exact ⟨k + 1, by simpa using hk, i, hi, by simpa using hb, by congr 1; omega⟩
    · rintro ⟨k, hk, i, hi, hb, rfl⟩
      cases k with
      | zero => exact .inl ⟨i, ⟨hi, by simpa using hb⟩, by simp⟩
      | succ k =>
        exact .inr ⟨k, by simpa using hk, i, hi, by simpa using hb, by congr 1; omega⟩

/-- Rows that are less than the screen's height apart, and columns within one row, land on different pixels (R202). -/
theorem spritePixel_inj {cx cy : Byte} {j j' i i' : Nat} (hi : i < 8) (hi' : i' < 8) (hj : j < j' + 32)
    (hj' : j' < j + 32) (h : spritePixel cx cy j i = spritePixel cx cy j' i') : j = j' ∧ i = i' := by
  simp only [spritePixel, Prod.mk.injEq, Fin.mk.injEq] at h
  omega

/-- One draw of at most 32 rows never touches the same pixel twice (R202). -/
theorem spritePixels_nodup (cx cy : Byte) {rows : List Byte} (h : rows.length ≤ 32) (j : Nat) :
    (spritePixels cx cy j rows).Nodup := by
  induction rows generalizing j with
  | nil => simp [spritePixels]
  | cons b rows ih =>
    simp only [List.length_cons] at h
    rw [spritePixels, List.nodup_append]
    refine ⟨?_, ih (by omega) _, ?_⟩
    · refine List.Nodup.map_on ?_ ?_
      · intro i hi i' hi' e
        exact (spritePixel_inj (mem_rowBits.mp hi).1 (mem_rowBits.mp hi').1 (by omega) (by omega) e).2
      · exact List.Nodup.filter _ (by decide)
    · intro p hp q hq e
      obtain ⟨i, hi, rfl⟩ := List.mem_map.mp hp
      obtain ⟨k, hk, i', hi', _, rfl⟩ := mem_spritePixels.mp hq
      have := (spritePixel_inj (mem_rowBits.mp hi).1 hi' (by omega) (by omega) e).1
      omega

end Sys2Proof.Machine
end

