-- ==== Sys2Proof/Tests/Slice0.lean ====
section
/-! SUPPORT. Tests of one step each, with results from the vectors of spec/95_test_vectors.md (their numbers stand in the
comments), and a witness for every statement that has hypotheses. -/

namespace Sys2Proof.Tests

open Sys2Proof.Machine Sys2Proof.Claims

/-- The state after Reset with some changes, and a word placed at PC. -/
def start (w : Nat) (change : State → State) : State := (change State.reset).withFetchWord 16 w

/-- Does an outcome answer a next state that passes a check? -/
def answers (r : Result) (check : State → Bool) : Bool :=
  match r with
  | .next t => check t
  | .fault _ => false
  | .refused _ => false

/-- One step from a start state answers a state that passes a check. -/
def ran (w : Nat) (change : State → State) (check : State → Bool) : Bool := answers (step (start w change)) check

/-- One step records a fatal condition, leaves PC, and emits nothing. -/
def faults (w : Nat) (change : State → State) (f : Fatal) : Bool :=
  ran w change fun t => decide (t.fault = some f) && t.pc == (change State.reset).pc && decide (t.events = [.screenReset])

/-- A stack depth of one. -/
def shallow (s : State) : State := { s with cfg := { s.cfg with stackDepth := .bounded 1 (by decide) } }

/-- LS_INCREMENTS_I true. -/
def advancing (s : State) : State := { s with cfg := { s.cfg with lsIncrementsI := true } }

/-! ### WellFormed -/

theorem test_wellFormed_refuses_16_rows : (Instr.drw 0 0 16).wellFormed = false := by decide
theorem test_wellFormed_takes_15_rows : (Instr.drw 0 0 15).wellFormed = true := by decide

/-! ### Decode: a word of every instruction, written out from its encoding (R82 to R92) -/

theorem test_decode_cls : decodeWord 0b0000_0000_1110_0000#16 = .ok .cls := by decide
theorem test_decode_ret : decodeWord 0b0000_0000_1110_1110#16 = .ok .ret := by decide
theorem test_decode_jp : decodeWord 0b0001_1010_1011_1100#16 = .ok (.jp 0xABC) := by decide
theorem test_decode_call : decodeWord 0b0010_0011_0100_0101#16 = .ok (.call 0x345) := by decide
theorem test_decode_seImm : decodeWord 0b0011_1010_0101_1100#16 = .ok (.seImm 10 0x5C) := by decide
theorem test_decode_sneImm : decodeWord 0b0100_0001_1111_1110#16 = .ok (.sneImm 1 0xFE) := by decide
theorem test_decode_seReg : decodeWord 0b0101_0010_1101_0000#16 = .ok (.seReg 2 13) := by decide
theorem test_decode_ldImm : decodeWord 0b0110_1010_0111_1011#16 = .ok (.ldImm 10 0x7B) := by decide
theorem test_decode_addImm : decodeWord 0b0111_1111_0000_0001#16 = .ok (.addImm 15 0x01) := by decide
theorem test_decode_ldReg : decodeWord 0b1000_0001_0010_0000#16 = .ok (.ldReg 1 2) := by decide
theorem test_decode_orReg : decodeWord 0b1000_0001_0010_0001#16 = .ok (.orReg 1 2) := by decide
theorem test_decode_andReg : decodeWord 0b1000_0001_0010_0010#16 = .ok (.andReg 1 2) := by decide
theorem test_decode_xorReg : decodeWord 0b1000_0001_0010_0011#16 = .ok (.xorReg 1 2) := by decide
theorem test_decode_addReg : decodeWord 0b1000_1010_1011_0100#16 = .ok (.addReg 10 11) := by decide
theorem test_decode_subReg : decodeWord 0b1000_1010_1011_0101#16 = .ok (.subReg 10 11) := by decide
theorem test_decode_shrReg : decodeWord 0b1000_1010_1011_0110#16 = .ok (.shrReg 10 11) := by decide
theorem test_decode_subnReg : decodeWord 0b1000_1010_1011_0111#16 = .ok (.subnReg 10 11) := by decide
theorem test_decode_shlReg : decodeWord 0b1000_1010_1011_1110#16 = .ok (.shlReg 10 11) := by decide
theorem test_decode_sneReg : decodeWord 0b1001_1100_0011_0000#16 = .ok (.sneReg 12 3) := by decide
theorem test_decode_ldI : decodeWord 0b1010_0011_0000_0000#16 = .ok (.ldI 0x300) := by decide
theorem test_decode_jpV0 : decodeWord 0b1011_1111_1111_0000#16 = .ok (.jpV0 0xFF0) := by decide
theorem test_decode_rnd : decodeWord 0b1100_1111_0011_0111#16 = .ok (.rnd 15 0x37) := by decide
theorem test_decode_drw : decodeWord 0b1101_0001_0010_1111#16 = .ok (.drw 1 2 15) := by decide
theorem test_decode_skp : decodeWord 0b1110_0101_1001_1110#16 = .ok (.skp 5) := by decide
theorem test_decode_sknp : decodeWord 0b1110_0101_1010_0001#16 = .ok (.sknp 5) := by decide
theorem test_decode_ldDT : decodeWord 0b1111_0101_0000_0111#16 = .ok (.ldDT 5) := by decide
theorem test_decode_waitKey : decodeWord 0b1111_1001_0000_1010#16 = .ok (.waitKey 9) := by decide
theorem test_decode_setDT : decodeWord 0b1111_0100_0001_0101#16 = .ok (.setDT 4) := by decide
theorem test_decode_setST : decodeWord 0b1111_0001_0001_1000#16 = .ok (.setST 1) := by decide
theorem test_decode_addI : decodeWord 0b1111_0010_0001_1110#16 = .ok (.addI 2) := by decide
theorem test_decode_ldFont : decodeWord 0b1111_0011_0010_1001#16 = .ok (.ldFont 3) := by decide
theorem test_decode_bcd : decodeWord 0b1111_1010_0011_0011#16 = .ok (.bcd 10) := by decide
theorem test_decode_storeRegs : decodeWord 0b1111_0001_0101_0101#16 = .ok (.storeRegs 1) := by decide
theorem test_decode_loadRegs : decodeWord 0b1111_0010_0110_0101#16 = .ok (.loadRegs 2) := by decide
/-- T30-2, T30-5, T41-9, T41-12, T41-19, T42-28, T42-29, T43-29. -/
theorem test_decode_illegal :
    decodeWord 0x01E0#16 = .error .system ∧ decodeWord 0x0FFF#16 = .error .system ∧
    decodeWord 0x5011#16 = .error .skipSelector ∧ decodeWord 0x901E#16 = .error .skipSelector ∧
    decodeWord 0x8018#16 = .error .aluSelector ∧ decodeWord 0x801F#16 = .error .aluSelector ∧
    decodeWord 0xE5A2#16 = .error .keySelector ∧ decodeWord 0xF0FF#16 = .error .miscSelector :=
  ⟨rfl, rfl, rfl, rfl, rfl, rfl, rfl, rfl⟩
theorem test_tableWord : decodeTableWord 16 0xD12F = some (.drw 1 2 15) ∧ decodeTableWord 16 0x901E = none := by decide
theorem test_decode_short : decode [] = .error .truncated ∧ decode [0x12] = .error .truncated := by decide

/-! ### Screen clear and control transfer -/

/-- T40-1. -/
theorem test_cls : ran 0x00E0 (fun s => s.setScreen (setPixel s.screen (3, 4) true)) (fun t =>
    !getPixel t.screen (3, 4) && t.pc == 0x202 && decide (t.events = [.screenReset, .screenReset])) = true := by
  decide
/-- T40-3. -/
theorem test_ret : ran 0x00EE (fun s => (s.setPc 0x30A).setStack [0x206]) (fun t =>
    t.pc == 0x206 && decide (t.stack = [])) = true := by decide
/-- T40-4. -/
theorem test_ret_empty : faults 0x00EE id (.stackUnderflow 0x200) = true := by decide
/-- T40-6. -/
theorem test_jp : ran 0x1FFF id (fun t => t.pc == 0xFFF && decide (t.fault = none)) = true := by decide
/-- T40-7. -/
theorem test_call : ran 0x220C (fun s => s.setPc 0x204) (fun t => t.pc == 0x20C && decide (t.stack = [0x206])) = true := by
  decide
/-- T40-8. -/
theorem test_call_full : faults 0x2300 (fun s => ((shallow s).setPc 0x204).setStack [0x202]) (.stackOverflow 0x204) = true := by
  decide
/-- T40-11. -/
theorem test_jpV0_over_12_bits : ran 0xBFF0 (fun s => s.setV 0 0x20) (fun t => t.pc == 0x1010) = true := by decide
/-- T40-13. -/
theorem test_jpV0_not_VX : ran 0xB1F0 (fun s => (s.setV 0 0x20).setV 1 0x77) (fun t => t.pc == 0x210) = true := by decide

/-! ### Skips -/

/-- T41-1. -/
theorem test_seImm : ran 0x3312 (fun s => s.setV 3 0x12) (fun t => t.pc == 0x204) = true := by decide
/-- T41-2. -/
theorem test_seImm_not : ran 0x3312 (fun s => s.setV 3 0x13) (fun t => t.pc == 0x202) = true := by decide
/-- T41-4. -/
theorem test_sneImm : ran 0x4312 (fun s => s.setV 3 0x13) (fun t => t.pc == 0x204) = true := by decide
/-- T41-5. -/
theorem test_sneImm_not : ran 0x4312 (fun s => s.setV 3 0x12) (fun t => t.pc == 0x202) = true := by decide
/-- T41-6. -/
theorem test_seReg : ran 0x5010 (fun s => (s.setV 0 5).setV 1 5) (fun t => t.pc == 0x204) = true := by decide
/-- T41-7. -/
theorem test_seReg_not : ran 0x5010 (fun s => (s.setV 0 5).setV 1 6) (fun t => t.pc == 0x202) = true := by decide
/-- T41-10. -/
theorem test_sneReg : ran 0x9010 (fun s => (s.setV 0 1).setV 1 2) (fun t => t.pc == 0x204) = true := by decide
/-- T41-11. -/
theorem test_sneReg_not : ran 0x9010 (fun s => (s.setV 0 2).setV 1 2) (fun t => t.pc == 0x202) = true := by decide
/-- T41-13. -/
theorem test_skp : ran 0xE59E (fun s => (s.setV 5 0x0A).hostKey 10 true) (fun t => t.pc == 0x204) = true := by decide
/-- T41-17. -/
theorem test_skp_no_key : faults 0xE59E (fun s => s.setV 5 0x10) (.keyIndexOutOfRange 0x200 0x10) = true := by decide
/-- T41-16. -/
theorem test_sknp : ran 0xE5A1 (fun s => (s.setV 5 0x0A).hostKey 10 true) (fun t => t.pc == 0x202) = true := by decide
/-- T41-18. -/
theorem test_sknp_no_key : faults 0xE5A1 (fun s => s.setV 5 0xFF) (.keyIndexOutOfRange 0x200 0xFF) = true := by decide

/-! ### Loads and arithmetic -/

/-- T42-1. -/
theorem test_ldImm : ran 0x6A7B id (fun t => t.getV 10 == 0x7B && t.pc == 0x202) = true := by decide
/-- T42-3. -/
theorem test_addImm_wraps : ran 0x7002 (fun s => (s.setV 0 0xFF).setV 15 0x55) (fun t =>
    t.getV 0 == 0x01 && t.getV 15 == 0x55) = true := by decide
/-- T42-4. -/
theorem test_addImm_VF : ran 0x7F01 (fun s => s.setV 15 0xFF) (fun t => t.getV 15 == 0x00) = true := by decide
/-- T42-5. -/
theorem test_ldReg : ran 0x8010 (fun s => s.setV 1 0x33) (fun t => t.getV 0 == 0x33) = true := by decide
/-- T42-6. -/
theorem test_orReg : ran 0x8011 (fun s => ((s.setV 0 0x0F).setV 1 0xF0).setV 15 7) (fun t =>
    t.getV 0 == 0xFF && t.getV 15 == 7) = true := by decide
/-- T42-7. -/
theorem test_andReg : ran 0x8012 (fun s => ((s.setV 0 0x3C).setV 1 0x0F).setV 15 7) (fun t =>
    t.getV 0 == 0x0C && t.getV 15 == 7) = true := by decide
/-- T42-8. -/
theorem test_xorReg : ran 0x8013 (fun s => ((s.setV 0 0x3C).setV 1 0x0F).setV 15 7) (fun t =>
    t.getV 0 == 0x33 && t.getV 15 == 7) = true := by decide
/-- T42-12. -/
theorem test_addReg : ran 0x8014 (fun s => (s.setV 0 0x80).setV 1 0x80) (fun t => t.getV 0 == 0 && t.getV 15 == 1) = true := by
  decide
/-- T42-14. -/
theorem test_addReg_into_VF : ran 0x8F14 (fun s => (s.setV 15 0xFF).setV 1 0x02) (fun t => t.getV 15 == 1) = true := by decide
/-- T42-15. -/
theorem test_subReg : ran 0x8015 (fun s => (s.setV 0 0x01).setV 1 0x02) (fun t => t.getV 0 == 0xFF && t.getV 15 == 0) = true := by
  decide
/-- T42-16. -/
theorem test_subReg_equal : ran 0x8015 (fun s => (s.setV 0 0x05).setV 1 0x05) (fun t =>
    t.getV 0 == 0 && t.getV 15 == 0) = true := by decide
/-- T42-20. -/
theorem test_shrReg : ran 0x8016 (fun s => (s.setV 0 0x04).setV 1 0xFF) (fun t =>
    t.getV 0 == 0x02 && t.getV 15 == 0 && t.getV 1 == 0xFF) = true := by decide
/-- T42-21. -/
theorem test_shrReg_VF : ran 0x8FF6 (fun s => s.setV 15 0x03) (fun t => t.getV 15 == 1) = true := by decide
/-- T42-22. -/
theorem test_subnReg : ran 0x8017 (fun s => (s.setV 0 0x02).setV 1 0x01) (fun t => t.getV 0 == 0xFF && t.getV 15 == 0) = true := by
  decide
/-- T42-23. -/
theorem test_subnReg_flag : ran 0x8017 (fun s => (s.setV 0 0x01).setV 1 0x03) (fun t =>
    t.getV 0 == 0x02 && t.getV 15 == 1) = true := by decide
/-- T42-25. -/
theorem test_shlReg : ran 0x800E (fun s => s.setV 0 0x81) (fun t => t.getV 0 == 0x02 && t.getV 15 == 1) = true := by decide
/-- T42-27. -/
theorem test_shlReg_VF : ran 0x8FFE (fun s => s.setV 15 0x80) (fun t => t.getV 15 == 1) = true := by decide
/-- T42-30: a draw of 0xA7. -/
theorem test_rnd (h : Config.randomByte 0 = 0xA7) :
    ∃ t, exec (.rnd 0 0x0F) State.reset = .next t ∧ t.getV 0 = 0x07 :=
  ⟨_, rfl, by show Config.randomByte 0 &&& 0x0F = 0x07; rw [h]; decide⟩

/-! ### Index register and memory -/

/-- T43-2. -/
theorem test_ldI : ran 0xAFFF id (fun t => t.i == 0xFFF && t.pc == 0x202) = true := by decide
/-- T43-4. -/
theorem test_addI : ran 0xF21E (fun s => (s.setI 0xFFF).setV 2 1) (fun t => t.i == 0x1000 && t.getV 15 == 1) = true := by decide
/-- T43-6. -/
theorem test_addI_wraps : ran 0xF21E (fun s => (s.setI 0xFFFF).setV 2 1) (fun t => t.i == 0 && t.getV 15 == 0) = true := by
  decide
/-- T43-13. -/
theorem test_ldFont : ran 0xF329 (fun s => s.setV 3 0xFF) (fun t => t.i == 0x4FB) = true := by decide
/-- T43-14. -/
theorem test_bcd : ran 0xFA33 (fun s => (s.setI 0x300).setV 10 123) (fun t =>
    decide (t.readBytes 0x300 3 = [1, 2, 3]) && t.i == 0x300) = true := by decide
/-- T43-18. -/
theorem test_bcd_out_of_range : faults 0xFA33 (fun s => (s.setI 0xFFE).setV 10 7) (.dataOutOfRange 0x200 0x1000) = true := by
  decide
/-- T43-21. -/
theorem test_storeRegs : ran 0xF155 (fun s => (((advancing s).setI 0x400).setV 0 0x11).setV 1 0x22) (fun t =>
    decide (t.readBytes 0x400 3 = [0x11, 0x22, 0]) && t.i == 0x402) = true := by decide
/-- T43-23. -/
theorem test_storeRegs_out_of_range : faults 0xFF55 (fun s => s.setI 0xFF1) (.dataOutOfRange 0x200 0x1000) = true := by decide
/-- T43-25. -/
theorem test_loadRegs : ran 0xF265 (fun s => ((s.writeBytes 0x300 [1, 2, 3]).setI 0x300).setV 3 9) (fun t =>
    t.getV 0 == 1 && t.getV 1 == 2 && t.getV 2 == 3 && t.getV 3 == 9 && t.i == 0x300) = true := by decide
/-- T43-27. -/
theorem test_loadRegs_out_of_range : faults 0xF165 (fun s => s.setI 0xFFF) (.dataOutOfRange 0x200 0x1000) = true := by decide

/-! ### Draw -/

/-- T44-1. -/
theorem test_drw_wraps : ran 0xD011 (fun s => (((s.setI 0x300).writeBytes 0x300 [0xC0]).setV 0 63).setV 1 31) (fun t =>
    getPixel t.screen (63, 31) && getPixel t.screen (0, 31) && t.getV 15 == 0 &&
    decide (t.events = [.screenReset, .pixelChanged 63 31 true, .pixelChanged 0 31 true])) = true := by decide
/-- T44-4, on the two pixels about the one that was set. -/
theorem test_drw_collides : ran 0xD011
    (fun s => ((s.setI 0x300).writeBytes 0x300 [0xFF]).setScreen (setPixel s.screen (3, 0) true)) (fun t =>
    getPixel t.screen (2, 0) && !getPixel t.screen (3, 0) && getPixel t.screen (4, 0) && t.getV 15 == 1) = true := by decide

/-! ### Timers and keys -/

/-- T45-1. -/
theorem test_ldDT : ran 0xF507 (fun s => s.setDT 0x3C) (fun t => t.getV 5 == 0x3C && t.dt == 0x3C) = true := by decide
/-- T45-2. -/
theorem test_setDT : ran 0xF015 (fun s => s.setV 0 0x3C) (fun t => t.dt == 0x3C && t.st == 0) = true := by decide
/-- T45-3. -/
theorem test_setST : ran 0xF118 (fun s => s.setV 1 2) (fun t => t.st == 2 && t.dt == 0 && decide (t.events = [.screenReset])) = true := by
  decide
/-- T45-4. -/
theorem test_waitKey_waits : ran 0xF30A id (fun t => t.pc == 0x200 && t.getV 3 == 0) = true := by decide
/-- T45-6. -/
theorem test_waitKey_lowest : ran 0xF30A (fun s => (s.hostKey 9 true).hostKey 2 true) (fun t =>
    t.getV 3 == 2 && t.pc == 0x202) = true := by decide

/-! ### Fetch and the host operations -/

/-- T30-1. -/
theorem test_next_illegal : faults 0x0000 id (.decodeError 0x200 0x0000) = true := by decide
/-- T30-7 and T30-11. -/
theorem test_next_out_of_range : answers (step (State.reset.setPc 0xFFF)) (fun t =>
    decide (t.fault = some (.fetchOutOfRange 0xFFF)) && t.pc == 0xFFF) = true := by decide
/-- T30-9. -/
theorem test_next_odd_pc : ran 0x6042 (fun s => s.setPc 0x201) (fun t => t.getV 0 == 0x42 && t.pc == 0x203) = true := by decide
/-- R250: PlayTone on the step from 1 to 0. -/
theorem test_ticker : answers (hostStep .ticker ((State.reset.setDT 1).setST 1)) (fun t =>
    t.dt == 0 && t.st == 0 && decide (t.events = [.screenReset, .playTone])) = true := by decide
/-- R250: nothing at 0. -/
theorem test_ticker_floor : answers (hostStep .ticker State.reset) (fun t =>
    t.dt == 0 && t.st == 0 && decide (t.events = [.screenReset])) = true := by decide
/-- R260 and R261. -/
theorem test_keys : answers (hostStep (.keyDown 15) State.reset) (fun t => t.keyDown 15) = true ∧
    answers (hostStep (.keyUp 15) (State.reset.hostKey 15 true)) (fun t => !t.keyDown 15) = true ∧
    hostStep (.keyDown 16) State.reset = .next State.reset := ⟨by decide, by decide, rfl⟩
/-- R284. -/
theorem test_load : answers (hostStep (.load [0x12, 0x34]) State.reset) (fun t =>
    t.readByte 0x1FF == 0 && decide (t.readBytes 0x200 3 = [0x12, 0x34, 0])) = true := by decide
/-- R244 and R280. -/
theorem test_reset_clears_fault : answers (hostStep .reset (State.reset.setFault (some (.stackUnderflow 0x200)))) (fun t =>
    decide (t.fault = none) && decide (t.events = [.screenReset, .screenReset])) = true := by decide
/-- R241. -/
theorem test_causeCodes : [Fatal.decodeError 0 0, .stackUnderflow 0, .stackOverflow 0, .fetchOutOfRange 0,
    .dataOutOfRange 0 0, .keyIndexOutOfRange 0 0].map fatalCode = [1, 2, 3, 4, 5, 6] := by decide

/-! ### Witnesses: a concrete state and operands that meet the hypotheses of each statement, a clause at a time -/

/-- A running state whose next word is `w` at `pc`, with no host operation listed. -/
def at_ (pc : Word) (w : Nat) : State := (start w fun s => s.setPc pc).setSchedule []

/-- A faulted state. -/
def faulted : State := State.reset.setFault (some (.stackUnderflow 0x200))

/-- A running state with a listed byte. -/
def faultless : State := at_ 0x200 0x1200

/-- The answer is a next state. -/
def isNext (r : Result) : Bool := answers r fun _ => true

theorem witness_ResetStateHoldsTheStatedValues :
    State.reset.readByte 79 = 0x80 ∧ State.reset.readByte 80 = 0 ∧ State.reset.readByte 0xFFF = 0 := by decide

theorem witness_ResetOperationFromEveryState : answers (hostStep .reset (faulted.writeBytes 79 [1, 2])) (fun t =>
    t.readByte 79 == 0x80 && t.readByte 80 == 0 && decide (t.fault = none)) = true := by decide

theorem witness_StepRunsTheDecodedInstruction :
    (at_ 0xFFE 0x1200).fault = none ∧ (at_ 0xFFE 0x1200).pc.toNat = 0x0FFE ∧ (at_ 0xFFE 0x1200).schedule = [] ∧
    decode [(at_ 0xFFE 0x1200).readByte 0xFFE, (at_ 0xFFE 0x1200).readByte 0xFFF] = .ok (.jp 0x200, []) :=
  ⟨rfl, rfl, rfl, by decide⟩

theorem witness_StepRunsTheDecodedInstruction_listed :
    ((at_ 0 0x1200).setSchedule [.next, .ticker]).schedule = .next :: [.ticker] ∧
    decode [(at_ 0 0x1200).readByte 0, (at_ 0 0x1200).readByte 1] = .ok (.jp 0x200, []) := ⟨rfl, by decide⟩

theorem witness_NextMakesItsChecksInOrder :
    faulted.schedule = [] ∧ faulted.fault = some (.stackUnderflow 0x200) ∧
    (State.reset.setPc 0xFFF).schedule = [] ∧ (State.reset.setPc 0xFFF).fault = none ∧
    0x0FFE < (State.reset.setPc 0xFFF).pc.toNat ∧
    (at_ 0xFFE 0x901E).schedule = [] ∧ (at_ 0xFFE 0x901E).pc.toNat ≤ 0x0FFE ∧
    decodeWord ((at_ 0xFFE 0x901E).readByte 0xFFE ++ (at_ 0xFFE 0x901E).readByte 0xFFF) = .error .skipSelector ∧
    decodeWord ((at_ 0xFFE 0x9010).readByte 0xFFE ++ (at_ 0xFFE 0x9010).readByte 0xFFF) = .ok (.sneReg 0 1) :=
  ⟨rfl, rfl, rfl, rfl, by decide, rfl, by decide, by decide, by decide⟩

/-- The words of the selected families at the edges of their clauses; the decode tests above hold one of every other. -/
theorem witness_DecodeFollowsTheFamilyTable :
    decodeWord 0x0000#16 = .error .system ∧ decodeWord 0x5FF0#16 = .ok (.seReg 15 15) ∧
    decodeWord 0x5FFF#16 = .error .skipSelector ∧ decodeWord 0x8007#16 = .ok (.subnReg 0 0) ∧
    decodeWord 0x8008#16 = .error .aluSelector ∧ decodeWord 0x800D#16 = .error .aluSelector ∧
    decodeWord 0x800E#16 = .ok (.shlReg 0 0) ∧ decodeWord 0x800F#16 = .error .aluSelector ∧
    decodeWord 0xE09D#16 = .error .keySelector ∧ decodeWord 0xE09F#16 = .error .keySelector ∧
    decodeWord 0xE0A0#16 = .error .keySelector ∧ decodeWord 0xF000#16 = .error .miscSelector ∧
    decodeWord 0xF066#16 = .error .miscSelector :=
  ⟨rfl, rfl, rfl, rfl, rfl, rfl, rfl, rfl, rfl, rfl, rfl, rfl, rfl⟩

theorem witness_IllegalWordsAreExactlyTheTables :
    (∃ r, decodeWord 0x0FFF#16 = .error r) ∧ (∃ r, decodeWord 0x5001#16 = .error r) ∧
    (∃ r, decodeWord 0x8008#16 = .error r) ∧ (∃ r, decodeWord 0x9001#16 = .error r) ∧
    (∃ r, decodeWord 0xE000#16 = .error r) ∧ (∃ r, decodeWord 0xFFFF#16 = .error r) :=
  ⟨⟨_, rfl⟩, ⟨_, rfl⟩, ⟨_, rfl⟩, ⟨_, rfl⟩, ⟨_, rfl⟩, ⟨_, rfl⟩⟩

theorem witness_DecodeOfEncodeIsTheInstruction :
    (Instr.drw 15 15 15).wellFormed = true ∧ decode (encode (.drw 15 15 15) ++ [0x00]) = .ok (.drw 15 15 15, [0x00]) :=
  ⟨by decide, by decide⟩

theorem witness_EncodeOfDecodeIsTheWord : decodeWord 0xDFFF#16 = .ok (.drw 15 15 15) := by decide

theorem witness_PlacedInstructionRunsNext :
    (Instr.jp 0xFFF).wellFormed = true ∧ (State.reset.setPc 0xFFE).mem.wf defaultFont = true ∧
    ((State.reset.setPc 0xFFE).withFetchWord 16 0x1FFF).pc = 0xFFE ∧
    ((State.reset.setPc 0xFFF).withFetchWord 16 0x1FFF).pc = 0x200 := by decide

theorem witness_ReturnResult :
    (State.reset.setStack [0x1000, 0x202]).stack = 0x1000 :: [0x202] ∧ State.reset.stack = [] := ⟨rfl, rfl⟩

theorem witness_CallResult_unbounded :
    ∀ limit positive, State.reset.cfg.stackDepth = .bounded limit positive → State.reset.stack.length ≠ limit :=
  fun _ _ h => nomatch h

/-- The last call that fits a stack of one entry. -/
theorem witness_CallResult_last :
    ∀ limit positive, (shallow State.reset).cfg.stackDepth = .bounded limit positive →
      (shallow State.reset).stack.length ≠ limit := by
  rintro limit positive h rfl
  exact absurd positive (by decide)

theorem witness_CallResult_full :
    ((shallow State.reset).setStack [0x202]).cfg.stackDepth = .bounded 1 (by decide) ∧
    ((shallow State.reset).setStack [0x202]).stack.length = 1 ∧ (State.reset.setPc 0x0FFE).pc.toNat = 0x0FFE :=
  ⟨rfl, rfl, rfl⟩

theorem witness_ReturnUndoesCall :
    State.reset.fault = none ∧ exec (.call 0x300) State.reset = .next ((State.reset.setStack [0x202]).setPc 0x300) ∧
    ((State.reset.setStack [0x202]).setPc 0x300).fault = none ∧
    ((State.reset.setStack [0x202]).setV 3 7).stack = ((State.reset.setStack [0x202]).setPc 0x300).stack :=
  ⟨rfl, rfl, rfl, rfl⟩

theorem witness_SkipOnKeyResult :
    ((State.reset.setV 0 0x0F).getV 0).toNat = (15 : Reg).val ∧ 0x0F < ((State.reset.setV 0 0x10).getV 0).toNat := by decide

theorem witness_StoreBcdResult :
    State.reset.mem.wf State.reset.cfg.font = true ∧ (State.reset.setI 0xFFD).i.toNat + 2 = 0xFFF ∧
    0xFFF < (State.reset.setI 0xFFE).i.toNat + 2 := by decide

theorem witness_StoreRegistersResult :
    State.reset.mem.wf State.reset.cfg.font = true ∧ (State.reset.setI 0xFF0).i.toNat + (15 : Reg).val = 0xFFF ∧
    0xFFF < (State.reset.setI 0xFF1).i.toNat + (15 : Reg).val ∧ (advancing State.reset).cfg.lsIncrementsI = true ∧
    State.reset.cfg.lsIncrementsI = false := by decide

theorem witness_LoadRegistersResult :
    (State.reset.setI 0xFFF).i.toNat + (0 : Reg).val = 0xFFF ∧ 0xFFF < (State.reset.setI 0xFFF).i.toNat + (1 : Reg).val ∧
    (advancing State.reset).cfg.lsIncrementsI = true ∧ State.reset.cfg.lsIncrementsI = false := by decide

/-- FX55 at 0xFF0 with all sixteen registers, then other registers, and the I of the store. -/
theorem witness_LoadRegistersUndoesStoreRegisters :
    (State.reset.setI 0xFF0).mem.wf State.reset.cfg.font = true ∧
    (State.reset.setI 0xFF0).i.toNat + (15 : Reg).val ≤ 0xFFF ∧
    ∃ t, exec (.storeRegs 15) (State.reset.setI 0xFF0) = .next t ∧ ((t.setV 0 9).setI 0xFF0).mem = t.mem ∧
      ((t.setV 0 9).setI 0xFF0).cfg = t.cfg ∧ ((t.setV 0 9).setI 0xFF0).i = (State.reset.setI 0xFF0).i :=
  ⟨by decide, by decide, _, rfl, rfl, rfl, rfl⟩

theorem witness_StoreIntoCodeRunsNext :
    let s := ((State.reset.setI 0x202).setV 0 0x12).setV 1 0x34
    s.mem.wf s.cfg.font = true ∧ s.fault = none ∧ s.schedule = [] ∧ s.i.toNat = s.pc.toNat + 2 ∧
    s.i.toNat + (1 : Reg).val ≤ 0xFFF ∧ decodeWord (s.getV 0 ++ s.getV 1) = .ok (.jp 0x234) ∧
    isNext (exec (.storeRegs 1) s) = true := by decide

theorem witness_DrawResult :
    (State.reset.setI 0xFF1).i.toNat ≤ 0xFFF ∧ (State.reset.setI 0xFF1).i.toNat + 15 = 0x1000 ∧
    (State.reset.setI 0xFFF).i.toNat + 0 ≤ 0x1000 ∧ 0x1000 < (State.reset.setI 0xFF2).i.toNat + 15 ∧
    0xFFF < (State.reset.setI 0x1000).i.toNat := by decide

/-- Fifteen rows are the most a word holds; two ones that start at the last column and row wrap, and a draw out of range
notifies nothing. -/
theorem witness_DrawTouchesNoPixelTwice : (15 : Nat) ≤ 15 ∧
    answers (exec (.drw 0 0 1) (((State.reset.setI 0x300).writeBytes 0x300 [0xC0]).setV 0 63)) (fun t =>
      decide (t.events = State.reset.events ++ [.pixelChanged 63 31 true, .pixelChanged 0 31 true])) = true ∧
    answers (exec (.drw 0 0 15) (State.reset.setI 0xFF2)) (fun t => decide (t.events = State.reset.events)) = true := by
  decide

/-- The glyph 0 at (0, 0), then at the same place again through other registers. -/
theorem witness_DrawTwiceRestoresTheScreen :
    State.reset.i.toNat + 5 ≤ 0x1000 ∧ ∃ t, exec (.drw 0 1 5) State.reset = .next t ∧
      (∀ j, j < 5 → t.readByte (dataAddr t j) = State.reset.readByte (dataAddr State.reset j)) ∧
      t.getV 2 = State.reset.getV 0 ∧ t.getV 3 = State.reset.getV 1 ∧ ∃ u, exec (.drw 2 3 5) t = .next u :=
  ⟨by decide, _, rfl, fun _ _ => rfl, rfl, rfl, _, rfl⟩

theorem witness_WaitForKeyResult :
    (State.reset.hostKey 15 true).keyDown 15 = true ∧
    (∀ j : Reg, j < 15 → (State.reset.hostKey 15 true).keyDown j = false) ∧
    (State.reset.hostKey 0 true).keyDown 0 = true ∧ (∀ k : Reg, State.reset.keyDown k = false) := by decide

/-- ST runs out on the last of the three. -/
theorem witness_TickersInARow :
    let s := (State.reset.setST 3).setSchedule [.ticker, .ticker, .ticker]
    s.schedule = List.replicate 3 .ticker ∧ 1 ≤ s.st.toNat ∧ s.st.toNat ≤ 3 := by decide

theorem witness_KeypadIsLevelState :
    (∀ op ∈ [HostOp.keyDown 15, .keyUp 15, .keyDown 16], isKeyEvent op = true) ∧
    (State.reset.setSchedule [.keyDown 15, .keyUp 15, .keyDown 16]).schedule = [.keyDown 15, .keyUp 15, .keyDown 16] := by
  decide

theorem witness_LoadResult :
    State.reset.mem.wf State.reset.cfg.font = true ∧ 0x200 + (List.replicate 3584 (0x12 : Byte)).length = 4096 ∧
    4096 < 0x200 + (List.replicate 3585 (0x12 : Byte)).length := by
  simp only [List.length_replicate]
  decide

theorem witness_LaunchIsReady : (List.replicate 3584 (0x12 : Byte)).length ≤ 3584 := List.length_replicate.le

theorem witness_FaultIsAllOrNothing :
    State.reset.schedule = [] ∧ State.reset.fault = none ∧
    step State.reset = .next (State.reset.setFault (some (.decodeError 0x200 0x0000))) := ⟨rfl, rfl, rfl⟩

theorem witness_OnlyTheOwnCheckFaults :
    State.reset.fault = none ∧ ¬ ownCheckPasses State.reset .ret ∧ ownCheckPasses (State.reset.setStack [2]) .ret ∧
    ownCheckPasses State.reset .cls := ⟨rfl, fun h => h rfl, by simp [ownCheckPasses], trivial⟩

theorem witness_FaultedUntilReset : faulted.fault = some (.stackUnderflow 0x200) ∧ faulted.schedule = [] := ⟨rfl, rfl⟩

/-- Each element of the statement is written by one of the instructions it names. -/
theorem witness_InstructionsWriteOnlyTheirElements :
    answers (exec (.setDT 0) (State.reset.setV 0 1)) (fun t => t.dt != 0) = true ∧
    answers (exec (.setST 0) (State.reset.setV 0 1)) (fun t => t.st != 0) = true ∧
    answers (exec (.ldI 1) State.reset) (fun t => t.i != 0) = true ∧
    answers (exec (.storeRegs 0) (advancing State.reset)) (fun t => t.i != 0) = true ∧
    answers (exec (.call 0) State.reset) (fun t => decide (t.stack = [0x202])) = true ∧
    answers (exec .ret (State.reset.setStack [2])) (fun t => decide (t.stack = [])) = true ∧
    answers (exec (.bcd 0) (State.reset.setV 0 1)) (fun t => decide (t.mem ≠ [])) = true ∧
    answers (exec (.drw 0 0 1) State.reset) (fun t => getPixel t.screen (0, 0)) = true ∧
    answers (exec .cls State.reset) (fun t => decide (t.events ≠ State.reset.events)) = true ∧
    answers (exec (.rnd 0 0) State.reset) (fun t => t.draws != 0) = true := by decide

theorem witness_RegisterFrame :
    isNext (exec (.loadRegs 2) State.reset) = true ∧ ¬ mayWriteReg (.loadRegs 2) 3 ∧ ¬ mayWriteReg (.addReg 0 1) 14 :=
  ⟨by decide, by simp [mayWriteReg], by simp [mayWriteReg]⟩

theorem witness_MemoryFrame :
    State.reset.mem.wf State.reset.cfg.font = true ∧ isNext (exec (.bcd 0) (State.reset.setI 0x300)) = true ∧
    ¬ storesTo (State.reset.setI 0x300) (.bcd 0) 0x2FF ∧ ¬ storesTo (State.reset.setI 0x300) (.bcd 0) 0x303 :=
  ⟨by decide, by decide, by simp [storesTo, dataAddr], by simp [storesTo, dataAddr]⟩

theorem witness_OnlyTheirOperationsWriteKeysAndScreen :
    answers (step (State.reset.setSchedule [.keyDown 3])) (fun t => t.keyDown 3) = true ∧
    answers (step ((State.reset.setScreen (setPixel State.reset.screen (0, 0) true)).setSchedule [.reset])) (fun t =>
      !getPixel t.screen (0, 0)) = true ∧
    answers (step (start 0xD001 id)) (fun t => getPixel t.screen (0, 0)) = true := by decide

theorem witness_EventLogOnlyGrows : isNext (step State.reset) = true := by decide

theorem witness_OnlyKeyInstructionsReadTheKeypad :
    (∀ x, Instr.cls ≠ .skp x) ∧ (∀ x, Instr.cls ≠ .sknp x) ∧ (∀ x, Instr.cls ≠ .waitKey x) :=
  ⟨fun _ => Instr.noConfusion, fun _ => Instr.noConfusion, fun _ => Instr.noConfusion⟩

theorem witness_NoInstructionReadsTheSoundTimer : ∀ x y, Instr.ldDT y ≠ .setST x := fun _ _ => Instr.noConfusion

theorem witness_StoppedStateStays : Stopped (at_ 0xFFE 0x1FFE) ∧ (at_ 0xFFE 0x1FFE).schedule = [] :=
  ⟨⟨rfl, by decide, 0xFFE, by decide, by decide⟩, rfl⟩

theorem witness_WaitingStateStaysUntilAKey : Waiting (at_ 0x200 0xF30A) ∧ (at_ 0x200 0xF30A).schedule = [] :=
  ⟨⟨rfl, by decide, by decide, 3, by decide⟩, rfl⟩

theorem faultless_inv : Inv faultless where
  memory := by decide
  pc := by decide
  returns := fun _ h => nomatch h
  depth := trivial
  fault := fun _ h => nomatch h

/-- A state no reset leaves, with a listed byte, a return address and a recorded fault, and one that takes a step. -/
theorem witness_StepKeepsTheInvariant :
    Inv { faultless with stack := [0x1000], pc := 0x10FE, fault := some (.fetchOutOfRange 0x10FE) } ∧
    Inv faultless ∧ isNext (step faultless) = true := by
  refine ⟨⟨faultless_inv.memory, by decide, ?_, trivial, ?_⟩, faultless_inv, by decide⟩
  · intro w hw
    rw [List.mem_singleton.mp hw]
    decide
  · intro f hf
    rw [← Option.some.inj hf]
    exact ⟨rfl, by decide⟩

theorem witness_CanonicalMemoryIsUnique :
    Memory.wf defaultFont [(0x000, 0x00), (0xFFF, 0x01)] = true ∧ Memory.wf defaultFont [(0x000, 0xF0)] = false ∧
    Memory.wf defaultFont [(0x1000, 0x01)] = false := by decide

end Sys2Proof.Tests
end

section
/-! PROOFS. The elements of the state: what one instruction and one host operation can write and read of them, and the
invariant that every step keeps. -/

namespace Sys2Proof.Machine

open Sys2Proof.Claims

/-! ### The operations with a check of their own: everything each can answer -/

theorem exec_ret_cases {s t : State} (h : exec .ret s = .next t) :
    (∃ top below, s.stack = top :: below ∧ t = (s.setStack below).setPc top) ∨
      (s.stack = [] ∧ t = s.setFault (some (.stackUnderflow s.pc))) := by
  simp only [exec, execRet] at h
  split at h <;> cases h
  · exact .inr ⟨‹_›, rfl⟩
  · exact .inl ⟨_, _, ‹_›, rfl⟩

theorem exec_call_full {s : State} {nnn : Addr12} (h : stackFull s.cfg.stackDepth s.stack = true) :
    exec (.call nnn) s = .next (s.setFault (some (.stackOverflow s.pc))) := if_pos h

theorem exec_call_notFull {s : State} {nnn : Addr12} (h : stackFull s.cfg.stackDepth s.stack = false) :
    exec (.call nnn) s = .next ((s.setStack ((s.pc + 2) :: s.stack)).setPc (addrOperand nnn)) :=
  if_neg (by simp [h])

theorem exec_call_cases {s t : State} {nnn : Addr12} (h : exec (.call nnn) s = .next t) :
    (stackFull s.cfg.stackDepth s.stack = false ∧
        t = (s.setStack ((s.pc + 2) :: s.stack)).setPc (addrOperand nnn)) ∨
      (stackFull s.cfg.stackDepth s.stack = true ∧ t = s.setFault (some (.stackOverflow s.pc))) := by
  cases hfull : stackFull s.cfg.stackDepth s.stack with
  | true => rw [exec_call_full hfull] at h; cases h; exact .inr ⟨rfl, rfl⟩
  | false => rw [exec_call_notFull hfull] at h; cases h; exact .inl ⟨rfl, rfl⟩

theorem skipOnKey_cases {s t : State} {x : Reg} {wanted : Bool} (h : skipOnKey x wanted s = .next t) :
    (∃ c, t = skipWhen c s) ∨
      (0x0F < (s.getV x).toNat ∧ t = s.setFault (some (.keyIndexOutOfRange s.pc (s.getV x)))) := by
  unfold skipOnKey at h
  split at h <;> cases h
  · exact .inr ⟨keyOperand_eq_none.mp ‹_›, rfl⟩
  · exact .inl ⟨_, rfl⟩

theorem withDataRange_cases {n : Nat} {s e t : State} (h : withDataRange n s e = .next t) :
    (dataInRange s n = true ∧ t = e) ∨ t = s.setFault (some (.dataOutOfRange s.pc (lowestOffending s))) := by
  unfold withDataRange at h
  split at h <;> cases h
  · exact .inl ⟨‹_›, rfl⟩
  · exact .inr rfl

theorem exec_waitKey_cases {s t : State} {x : Reg} (h : exec (.waitKey x) s = .next t) :
    t = s ∨ ∃ b, t = (s.setV x b).advance := by
  simp only [exec, execWaitKey] at h
  split at h <;> cases h
  · exact .inr ⟨_, rfl⟩
  · exact .inl rfl

/-! ### Which instruction writes which element -/

/-- FX55 and FX65 change I only if LS_INCREMENTS_I (R27). -/
theorem lsIncrementsI_of_index_ne {s : State} {x : Reg} (h : indexAfterTransfer s x ≠ s.i) :
    s.cfg.lsIncrementsI = true := by
  by_contra hf
  exact h (if_neg hf)

/-- Settles O47, by cases on the instruction; the ones with a check of their own go through what each can answer. -/
theorem instructionsWriteOnlyTheirElements : Obligations.InstructionsWriteOnlyTheirElements := by
  intro i s t h
  cases i with
  | ret =>
    obtain ⟨top, below, hstack, rfl⟩ | ⟨-, rfl⟩ := exec_ret_cases h
    · simp [hstack]
    · simp
  | call nnn => obtain ⟨-, rfl⟩ | ⟨-, rfl⟩ := exec_call_cases h <;> simp
  | skp x | sknp x => obtain ⟨c, rfl⟩ | ⟨-, rfl⟩ := skipOnKey_cases h <;> simp
  | waitKey x => obtain rfl | ⟨b, rfl⟩ := exec_waitKey_cases h <;> simp
  | drw x y n | bcd x => obtain ⟨-, rfl⟩ | rfl := withDataRange_cases h <;> simp
  | storeRegs x | loadRegs x =>
    obtain ⟨-, rfl⟩ | rfl := withDataRange_cases h
    · simpa using lsIncrementsI_of_index_ne
    · simp
  | _ => cases h; simp

/-- Settles O48, by cases on the instruction: each register write is to VX, to VF, or to V0 to VX in order. -/
theorem registerFrame : Obligations.RegisterFrame := by
  intro i s t h r hr
  cases i with
  | ret => obtain ⟨top, below, -, rfl⟩ | ⟨-, rfl⟩ := exec_ret_cases h <;> simp
  | call nnn => obtain ⟨-, rfl⟩ | ⟨-, rfl⟩ := exec_call_cases h <;> simp
  | skp x | sknp x => obtain ⟨c, rfl⟩ | ⟨-, rfl⟩ := skipOnKey_cases h <;> simp
  | bcd x | storeRegs x => obtain ⟨-, rfl⟩ | rfl := withDataRange_cases h <;> simp
  | waitKey x =>
    obtain rfl | ⟨b, rfl⟩ := exec_waitKey_cases h
    · rfl
    · exact setV_getV_ne s _ hr
  | drw x y n =>
    obtain ⟨-, rfl⟩ | rfl := withDataRange_cases h
    · exact setV_getV_ne _ _ hr
    · rfl
  | loadRegs x =>
    obtain ⟨-, rfl⟩ | rfl := withDataRange_cases h
    · have past : (s.readBytes (dataAddr s 0) (x.val + 1)).length ≤ r.val := by
        simpa [State.readBytes, mayWriteReg] using hr
      simp [loadRegsFrom_getV, List.getElem?_eq_none past]
    · rfl
  | ldImm x nn | addImm x nn | ldReg x y | orReg x y | andReg x y | xorReg x y | rnd x nn | ldDT x | addI x =>
    cases h
    exact setV_getV_ne _ _ hr
  | addReg x y | subReg x y | shrReg x y | subnReg x y | shlReg x y =>
    cases h
    obtain ⟨hx, hf⟩ := not_or.mp hr
    exact (setResultFlag_getV s x r _ _).trans ((if_neg hf).trans (if_neg hx))
  | _ => cases h; simp

/-! ### The invariant, one clause at a time -/

/-- An instruction leaves `fault` as it was, or records a fatal condition that is true of the state (R241, R243). -/
theorem exec_keeps_or_records_truth {i : Instr} {s t : State} (h : exec i s = .next t) :
    t.fault = s.fault ∨ ∃ f, t = s.setFault (some f) ∧ faultTruthful s f := by
  cases i with
  | ret =>
    obtain ⟨top, below, -, rfl⟩ | ⟨hstack, rfl⟩ := exec_ret_cases h
    · exact .inl rfl
    · exact .inr ⟨_, rfl, rfl, hstack⟩
  | call nnn =>
    obtain ⟨-, rfl⟩ | ⟨hfull, rfl⟩ := exec_call_cases h
    · exact .inl rfl
    · exact .inr ⟨_, rfl, rfl, hfull⟩
  | skp x | sknp x =>
    obtain ⟨c, rfl⟩ | ⟨hkey, rfl⟩ := skipOnKey_cases h
    · exact .inl rfl
    · exact .inr ⟨_, rfl, rfl, hkey, x, rfl⟩
  | drw x y n | bcd x | storeRegs x | loadRegs x =>
    obtain ⟨-, rfl⟩ | rfl := withDataRange_cases h
    · exact .inl (by simp)
    · exact .inr ⟨_, rfl, rfl, rfl⟩
  | waitKey x => obtain rfl | ⟨b, rfl⟩ := exec_waitKey_cases h <;> exact .inl rfl
  | _ => cases h; exact .inl rfl

/-- A store whose range check passes keeps memory in canonical form (R56). -/
theorem writeBytes_wf {s : State} {bs : List Byte} (hm : s.mem.wf s.cfg.font = true)
    (hr : dataInRange s bs.length = true) :
    (s.writeBytes (dataAddr s 0) bs).mem.wf s.cfg.font = true :=
  memWriteList_wf hm ((dataInRange_iff s bs.length).mp hr).2

theorem exec_keeps_memory {i : Instr} {s t : State} (hm : s.mem.wf s.cfg.font = true) (h : exec i s = .next t) :
    t.mem.wf t.cfg.font = true := by
  obtain ⟨hcfg, -, -, -, -, -, -, hmem, -⟩ := instructionsWriteOnlyTheirElements i s t h
  rw [hcfg]
  by_cases same : t.mem = s.mem
  · rw [same]
    exact hm
  · obtain ⟨x, rfl⟩ | ⟨x, rfl⟩ := hmem same
    · obtain ⟨hr, rfl⟩ | rfl := withDataRange_cases h
      · exact writeBytes_wf hm hr
      · exact hm
    · obtain ⟨hr, rfl⟩ | rfl := withDataRange_cases h
      · exact writeBytes_wf hm (by rwa [regValues_length])
      · exact hm

theorem addrOperand_le (nnn : Addr12) : (addrOperand nnn).toNat ≤ 0xFFF := by
  have := nnn.isLt
  simp only [addrOperand, BitVec.toNat_setWidth]
  omega

theorem addrOperand_add_le (nnn : Addr12) (b : Byte) : (addrOperand nnn + b.setWidth 16).toNat ≤ 0x10FE := by
  have hn := addrOperand_le nnn
  have hb := b.isLt
  simp only [BitVec.toNat_add, BitVec.toNat_setWidth]
  omega

theorem toNat_add_two {w : Word} (h : w.toNat ≤ 0x0FFE) : (w + 2).toNat = w.toNat + 2 := by
  bv_omega

theorem skipWhen_pc_le {s : State} (c : Bool) (h : s.pc.toNat ≤ 0x0FFE) : (skipWhen c s).pc.toNat ≤ 0x10FE := by
  rw [skipWhen_pc]
  split <;> bv_omega

/-- PC after an instruction that Next ran: at most BNNN's 0x10FE (R115). -/
theorem exec_pc_le {i : Instr} {s t : State} (hpc : s.pc.toNat ≤ 0x0FFE) (hret : ∀ w ∈ s.stack, w.toNat ≤ 0x1000)
    (h : exec i s = .next t) : t.pc.toNat ≤ 0x10FE := by
  have stays : s.pc.toNat ≤ 0x10FE := by omega
  have goesOn : (s.pc + 2).toNat ≤ 0x10FE := by rw [toNat_add_two hpc]; omega
  cases i with
  | ret =>
    obtain ⟨top, below, hstack, rfl⟩ | ⟨-, rfl⟩ := exec_ret_cases h
    · have := hret top (by simp [hstack])
      exact this.trans (by decide)
    · exact stays
  | call nnn =>
    obtain ⟨-, rfl⟩ | ⟨-, rfl⟩ := exec_call_cases h
    · exact (addrOperand_le nnn).trans (by decide)
    · exact stays
  | jp nnn => cases h; exact (addrOperand_le nnn).trans (by decide)
  | jpV0 nnn => cases h; exact addrOperand_add_le nnn _
  | seImm x nn | sneImm x nn | seReg x y | sneReg x y => cases h; exact skipWhen_pc_le _ hpc
  | skp x | sknp x =>
    obtain ⟨c, rfl⟩ | ⟨-, rfl⟩ := skipOnKey_cases h
    · exact skipWhen_pc_le c hpc
    · exact stays
  | waitKey x =>
    obtain rfl | ⟨b, rfl⟩ := exec_waitKey_cases h
    · exact stays
    · exact goesOn
  | drw x y n | bcd x | storeRegs x | loadRegs x =>
    obtain ⟨-, rfl⟩ | rfl := withDataRange_cases h
    · simpa using goesOn
    · exact stays
  | _ => cases h; exact goesOn

/-- The stack after an instruction: unchanged, popped, or grown by the word after a call while it was not full
(R112, R114). -/
theorem exec_stack_cases {i : Instr} {s t : State} (h : exec i s = .next t) :
    t.stack = s.stack ∨ (∃ top, s.stack = top :: t.stack) ∨
      (stackFull s.cfg.stackDepth s.stack = false ∧ t.stack = (s.pc + 2) :: s.stack) := by
  obtain ⟨-, -, -, -, -, -, hstack, -⟩ := instructionsWriteOnlyTheirElements i s t h
  obtain same | ⟨nnn, rfl, -⟩ | ⟨-, popped⟩ := hstack
  · exact .inl same
  · obtain ⟨hfull, rfl⟩ | ⟨-, rfl⟩ := exec_call_cases h
    · exact .inr (.inr ⟨hfull, rfl⟩)
    · exact .inl rfl
  · exact .inr (.inl popped)

theorem exec_keeps_returns {i : Instr} {s t : State} (hpc : s.pc.toNat ≤ 0x0FFE)
    (hs : ∀ w ∈ s.stack, 2 ≤ w.toNat ∧ w.toNat ≤ 0x1000) (h : exec i s = .next t) :
    ∀ w ∈ t.stack, 2 ≤ w.toNat ∧ w.toNat ≤ 0x1000 := by
  obtain same | ⟨top, popped⟩ | ⟨-, pushed⟩ := exec_stack_cases h
  · rwa [same]
  · rw [popped] at hs
    exact (List.forall_mem_cons.mp hs).2
  · rw [pushed]
    exact List.forall_mem_cons.mpr ⟨by rw [toNat_add_two hpc]; omega, hs⟩

theorem stackWithin_tail {depth : StackDepth} {w : Word} {l : List Word} (h : stackWithin depth (w :: l)) :
    stackWithin depth l := by
  cases depth with
  | unbounded => trivial
  | bounded limit positive => exact (Nat.le_succ l.length).trans h

/-- A push onto a stack that is not full stays within STACK_DEPTH (R20, R114). -/
theorem stackWithin_push {depth : StackDepth} {l : List Word} (w : Word) (h : stackWithin depth l)
    (hfull : stackFull depth l = false) : stackWithin depth (w :: l) := by
  cases depth with
  | unbounded => trivial
  | bounded limit positive =>
    have hne : l.length ≠ limit := fun e => by
      rw [(stackFull_iff _ l).mpr ⟨limit, positive, rfl, e⟩] at hfull
      cases hfull
    exact Nat.lt_of_le_of_ne h hne

theorem exec_keeps_depth {i : Instr} {s t : State} (hs : stackWithin s.cfg.stackDepth s.stack)
    (h : exec i s = .next t) : stackWithin t.cfg.stackDepth t.stack := by
  obtain ⟨hcfg, -⟩ := instructionsWriteOnlyTheirElements i s t h
  rw [hcfg]
  obtain same | ⟨top, popped⟩ | ⟨hfull, pushed⟩ := exec_stack_cases h
  · rwa [same]
  · exact stackWithin_tail (popped ▸ hs)
  · rw [pushed]
    exact stackWithin_push _ hs hfull

/-! ### The invariant through Next and through every host operation -/

/-- Taking a fatal condition that is true of the state keeps the invariant (R242). -/
theorem inv_setFault {s : State} {f : Fatal} (hs : Inv s) (hf : faultTruthful s f) : Inv (s.setFault (some f)) where
  memory := hs.memory
  pc := hs.pc
  returns := hs.returns
  depth := hs.depth
  fault := by rintro _ ⟨⟩; exact hf

theorem exec_keeps_inv {i : Instr} {s t : State} (hs : Inv s) (hrun : s.fault = none) (hpc : s.pc.toNat ≤ 0x0FFE)
    (h : exec i s = .next t) : Inv t := by
  obtain hf | ⟨f, rfl, truth⟩ := exec_keeps_or_records_truth h
  · exact
      { memory := exec_keeps_memory hs.memory h
        pc := exec_pc_le hpc (fun w hw => (hs.returns w hw).2) h
        returns := exec_keeps_returns hpc hs.returns h
        depth := exec_keeps_depth hs.depth h
        fault := by simp [hf, hrun] }
  · exact inv_setFault hs truth

theorem next_keeps_inv {s t : State} (hs : Inv s) (h : next s = .next t) : Inv t := by
  obtain ⟨hrun, ⟨hpc, rfl⟩ | ⟨-, hw, rfl⟩ | ⟨hpc, i, -, hi⟩⟩ := next_cases h
  · exact inv_setFault hs ⟨rfl, hpc⟩
  · exact inv_setFault hs ⟨rfl, hw⟩
  · exact exec_keeps_inv hs hrun hpc hi

/-- The invariant says nothing of the timers, the screen, the keys, the log, the count of draws and the schedule. -/
theorem inv_of_unmentioned {s : State} (hs : Inv s) (dt st : Byte) (screen : Screen) (keys : Vector Bool 16)
    (events : List Event) (draws : Nat) (schedule : List HostOp) :
    Inv { s with dt, st, screen, keys, events, draws, schedule } where
  memory := hs.memory
  pc := hs.pc
  returns := hs.returns
  depth := hs.depth
  fault := hs.fault

theorem inv_setMem {s : State} (hs : Inv s) {m : Memory} (hm : m.wf s.cfg.font = true) : Inv (s.setMem m) where
  memory := hm
  pc := hs.pc
  returns := hs.returns
  depth := hs.depth
  fault := hs.fault

theorem inv_resetWith (cfg : Config) : Inv (State.resetWith cfg) where
  memory := rfl
  pc := by simp [State.resetWith]
  returns := by simp [State.resetWith]
  depth := by cases h : cfg.stackDepth <;> simp [State.resetWith, stackWithin, h]
  fault := by simp [State.resetWith]

theorem inv_hostReset (s : State) : Inv s.hostReset :=
  inv_of_unmentioned (inv_resetWith s.cfg) 0 0 blankScreen _ (s.events ++ [Event.screenReset]) s.draws s.schedule

/-- Load changes no element but memory (R284). -/
theorem hostLoad_frame (s : State) (bytes : List Byte) :
    (s.hostLoad bytes).1 = s.setMem (s.hostLoad bytes).1.mem := by
  unfold State.hostLoad
  split <;> rfl

theorem hostLoad_keeps_memory {s : State} (hm : s.mem.wf s.cfg.font = true) (bytes : List Byte) :
    (s.hostLoad bytes).1.mem.wf s.cfg.font = true := by
  unfold State.hostLoad
  split
  · exact hm
  · exact memWriteList_wf hm (by omega)

/-- A key event changes no element but the keypad (R260, R261). -/
theorem hostKey_frame (s : State) (idx : Nat) (down : Bool) :
    s.hostKey idx down = s.setKeys (s.hostKey idx down).keys := by
  unfold State.hostKey
  split <;> rfl

theorem hostKey_keeps_inv {s : State} (hs : Inv s) (idx : Nat) (down : Bool) : Inv (s.hostKey idx down) := by
  rw [hostKey_frame]
  exact inv_of_unmentioned hs _ _ _ _ _ _ _

theorem hostStep_keeps_inv {op : HostOp} {s t : State} (hs : Inv s) (h : hostStep op s = .next t) : Inv t := by
  cases op with
  | next => exact next_keeps_inv hs h
  | reset => cases h; exact inv_hostReset s
  | load bytes => cases h; rw [hostLoad_frame]; exact inv_setMem hs (hostLoad_keeps_memory hs.memory bytes)
  | ticker => cases h; exact inv_of_unmentioned hs _ _ _ _ _ _ _
  | keyDown idx => cases h; exact hostKey_keeps_inv hs idx true
  | keyUp idx => cases h; exact hostKey_keeps_inv hs idx false

/-- Settles O57: a step is a Next or the first listed operation, and each of them keeps the invariant. -/
theorem stepKeepsTheInvariant : Obligations.StepKeepsTheInvariant := by
  intro s t hs h
  obtain ⟨-, hstep⟩ | ⟨op, ops, -, hstep⟩ := step_cases s
  · exact next_keeps_inv hs (hstep ▸ h)
  · have hsched : Inv (s.setSchedule ops) := inv_of_unmentioned hs _ _ _ _ _ _ _
    exact hostStep_keeps_inv hsched (hstep ▸ h)

/-- Settles O58: `State.reset` is the reset state for the default parameters. -/
theorem resetMeetsTheInvariant : Obligations.ResetMeetsTheInvariant :=
  ⟨inv_resetWith defaultConfig, inv_resetWith⟩

end Sys2Proof.Machine
end

section
/-! PROOFS. What a host operation can write, and the elements that an instruction or a step does not read. -/

namespace Sys2Proof.Machine

open Sys2Proof.Claims

/-! ### Which host operation writes which element -/

/-- What a Next writes of the parameters, the keypad and the screen (R42). -/
theorem next_frame {s t : State} (h : next s = .next t) :
    t.cfg = s.cfg ∧ t.keys = s.keys ∧
      (t.screen ≠ s.screen →
        decodeWord (fetchWord s) = .ok .cls ∨ ∃ x y n, decodeWord (fetchWord s) = .ok (.drw x y n)) := by
  obtain ⟨-, ⟨-, rfl⟩ | ⟨-, -, rfl⟩ | ⟨-, i, hw, hi⟩⟩ := next_cases h
  · simp
  · simp
  · obtain ⟨hcfg, hkeys, -, -, -, -, -, -, hscreen, -⟩ := instructionsWriteOnlyTheirElements i s t hi
    refine ⟨hcfg, hkeys, fun changed => ?_⟩
    obtain rfl | ⟨x, y, n, rfl⟩ := hscreen changed
    · exact .inl hw
    · exact .inr ⟨x, y, n, hw⟩

/-- What a host operation writes of the parameters, the keypad and the screen. -/
theorem hostStep_frame {op : HostOp} {s t : State} (h : hostStep op s = .next t) :
    t.cfg = s.cfg ∧ (t.keys ≠ s.keys → isKeyEvent op = true ∨ op = .reset) ∧
      (t.screen ≠ s.screen →
        op = .reset ∨ (op = .next ∧
          (decodeWord (fetchWord s) = .ok .cls ∨ ∃ x y n, decodeWord (fetchWord s) = .ok (.drw x y n)))) := by
  cases op with
  | next =>
    obtain ⟨hcfg, hkeys, hscreen⟩ := next_frame h
    exact ⟨hcfg, fun changed => absurd hkeys changed, fun changed => .inr ⟨rfl, hscreen changed⟩⟩
  | reset => cases h; exact ⟨rfl, fun _ => .inr rfl, fun _ => .inl rfl⟩
  | load bytes => cases h; rw [hostLoad_frame]; simp
  | ticker => cases h; exact ⟨rfl, fun changed => absurd rfl changed, fun changed => absurd rfl changed⟩
  | keyDown idx | keyUp idx => cases h; rw [hostKey_frame]; simp [isKeyEvent]

/-- Settles O50: the step is a Next or the first listed operation, and what each writes is known. -/
theorem onlyTheirOperationsWriteKeysAndScreen : Obligations.OnlyTheirOperationsWriteKeysAndScreen := by
  intro s t h
  obtain ⟨hs, hstep⟩ | ⟨op, ops, hs, hstep⟩ := step_cases s
  · obtain ⟨hcfg, hkeys, hscreen⟩ := next_frame (hstep ▸ h)
    exact ⟨hcfg, fun changed => absurd hkeys changed, fun changed => .inr ⟨.inl hs, hscreen changed⟩⟩
  · obtain ⟨hcfg, hkeys, hscreen⟩ := hostStep_frame (hstep ▸ h)
    refine ⟨hcfg, fun changed => ⟨op, ops, hs, hkeys changed⟩, fun changed => ?_⟩
    obtain rfl | ⟨rfl, hw⟩ := hscreen changed
    · exact .inl ⟨ops, hs⟩
    · exact .inr ⟨.inr ⟨ops, hs⟩, hw⟩

/-! ### The elements that are not read -/

/-- The state with ST and the keypad changed by a function, and with older notifications put before its event log. -/
def State.withUnread (st : Byte → Byte) (keys : Vector Bool 16 → Vector Bool 16) (log : List Event) (s : State) : State :=
  { s with st := st s.st, keys := keys s.keys, events := log ++ s.events }

section
variable (st : Byte → Byte) (keys : Vector Bool 16 → Vector Bool 16) (log : List Event)

theorem emit_withUnread (s : State) (es : List Event) :
    (s.withUnread st keys log).emit es = (s.emit es).withUnread st keys log := by
  simp [State.emit, State.withUnread]

theorem loadRegsFrom_withUnread (s : State) (rs : List Reg) (bs : List Byte) :
    loadRegsFrom (s.withUnread st keys log) rs bs = (loadRegsFrom s rs bs).withUnread st keys log := by
  induction rs generalizing s bs with
  | nil => rfl
  | cons r rs ih =>
    cases bs with
    | nil => rfl
    | cons b bs => exact ih (s.setV r b) bs

@[simp] theorem withUnread_stack (s : State) : (s.withUnread st keys log).stack = s.stack := rfl
@[simp] theorem withUnread_getV (s : State) (r : Reg) : (s.withUnread st keys log).getV r = s.getV r := rfl
@[simp] theorem dataInRange_withUnread (s : State) (n : Nat) :
    dataInRange (s.withUnread st keys log) n = dataInRange s n := rfl
@[simp] theorem firstPressed_withUnread (s : State) : firstPressed (s.withUnread st id log) = firstPressed s := rfl

/-- A checked transfer reads none of the three where its effect does not. -/
theorem withDataRange_withUnread (n : Nat) (s : State) {e e' : State} (he : e' = e.withUnread st keys log) :
    withDataRange n (s.withUnread st keys log) e' =
      onNext (State.withUnread st keys log) (withDataRange n s e) := by
  simp only [withDataRange, dataInRange_withUnread, he]
  split <;> rfl

/-- An instruction reads neither ST nor the log, and the keypad only if it is EX9E, EXA1 or FX0A; FX18, which overwrites
ST, is left out where ST changes (R30, R34, R39). -/
theorem exec_withUnread (i : Instr) (s : State) (hst : ∀ x, i = .setST x → st = id)
    (hkeys : ∀ x, i = .skp x ∨ i = .sknp x ∨ i = .waitKey x → keys = id) :
    exec i (s.withUnread st keys log) = onNext (State.withUnread st keys log) (exec i s) := by
  cases i with
  | cls =>
    exact congrArg (fun u : State => Host.Outcome.next u.advance)
      (emit_withUnread st keys log (s.setScreen blankScreen) [.screenReset])
  | ret =>
    simp only [exec, execRet, withUnread_stack]
    cases s.stack <;> rfl
  | call nnn =>
    cases hfull : stackFull s.cfg.stackDepth s.stack with
    | true => rw [exec_call_full hfull]; exact exec_call_full (s := s.withUnread st keys log) hfull
    | false => rw [exec_call_notFull hfull]; exact exec_call_notFull (s := s.withUnread st keys log) hfull
  | skp x | sknp x =>
    obtain rfl := hkeys x (by simp)
    simp only [exec, execSkp, execSknp, skipOnKey, withUnread_getV]
    cases keyOperand (s.getV x) <;> rfl
  | waitKey x =>
    obtain rfl := hkeys x (by simp)
    simp only [exec, execWaitKey, firstPressed_withUnread]
    cases firstPressed s <;> rfl
  | setST x => obtain rfl := hst x rfl; rfl
  | drw x y n =>
    let d := screenDraw s.screen (s.getV x) (s.getV y) (s.readBytes (dataAddr s 0) n)
    exact withDataRange_withUnread st keys log n s
      (congrArg (fun u : State => (u.setV vF (flagByte d.collision)).advance)
        (emit_withUnread st keys log (s.setScreen d.screen) d.events))
  | bcd x | storeRegs x => exact withDataRange_withUnread st keys log _ s rfl
  | loadRegs x =>
    exact withDataRange_withUnread st keys log _ s
      (congrArg (fun u : State => (u.setI _).advance) (loadRegsFrom_withUnread st keys log s allKeys _))
  | _ => rfl

end

/-- Settles O53: replacing the keypad is a change of an element that no other instruction reads. -/
theorem onlyKeyInstructionsReadTheKeypad : Obligations.OnlyKeyInstructionsReadTheKeypad := by
  intro i s keys hskp hsknp hwait
  refine exec_withUnread id (fun _ => keys) [] i s (fun _ _ => rfl) ?_
  rintro x (h | h | h)
  · exact absurd h (hskp x)
  · exact absurd h (hsknp x)
  · exact absurd h (hwait x)

/-- Settles O54: replacing ST is a change of an element that no instruction but FX18 touches. -/
theorem noInstructionReadsTheSoundTimer : Obligations.NoInstructionReadsTheSoundTimer := by
  intro i s b hst
  exact exec_withUnread (fun _ => b) id [] i s (fun x h => absurd h (hst x)) fun _ _ => rfl

/-! ### The event log -/

/-- The state with older notifications put before its event log. -/
def State.prependLog (log : List Event) (s : State) : State := s.withUnread id id log

theorem next_prependLog (log : List Event) (s : State) :
    next (s.prependLog log) = onNext (State.prependLog log) (next s) := by
  cases hf : s.fault with
  | some f => rw [next_faulted hf]; exact next_faulted hf
  | none =>
    by_cases hp : s.pc.toNat ≤ 0x0FFE
    · cases hw : decodeWord (fetchWord s) with
      | error r => rw [next_illegal hf hp hw]; exact next_illegal (s := s.prependLog log) hf hp hw
      | ok i =>
        rw [next_legal hf hp hw, next_legal (s := s.prependLog log) hf hp hw]
        exact exec_withUnread id id log i s (fun _ _ => rfl) fun _ _ => rfl
    · have hp' : 0x0FFE < s.pc.toNat := by omega
      rw [next_outOfRange hf hp']
      exact next_outOfRange (s := s.prependLog log) hf hp'

theorem hostReset_prependLog (log : List Event) (s : State) :
    (s.prependLog log).hostReset = s.hostReset.prependLog log := by
  simp [State.hostReset, State.prependLog, State.withUnread]

theorem hostLoad_prependLog (log : List Event) (s : State) (bytes : List Byte) :
    ((s.prependLog log).hostLoad bytes).1 = (s.hostLoad bytes).1.prependLog log := by
  unfold State.hostLoad
  split <;> rfl

theorem hostKey_prependLog (log : List Event) (s : State) (idx : Nat) (down : Bool) :
    (s.prependLog log).hostKey idx down = (s.hostKey idx down).prependLog log := by
  unfold State.hostKey
  split <;> rfl

theorem hostStep_prependLog (log : List Event) (op : HostOp) (s : State) :
    hostStep op (s.prependLog log) = onNext (State.prependLog log) (hostStep op s) := by
  cases op with
  | next => exact next_prependLog log s
  | reset => exact congrArg Host.Outcome.next (hostReset_prependLog log s)
  | load bytes => exact congrArg Host.Outcome.next (hostLoad_prependLog log s bytes)
  | ticker => exact congrArg (fun u : State => Host.Outcome.next (u.setST _)) (emit_withUnread id id log (s.setDT _) _)
  | keyDown idx => exact congrArg Host.Outcome.next (hostKey_prependLog log s idx true)
  | keyUp idx => exact congrArg Host.Outcome.next (hostKey_prependLog log s idx false)

/-- A step does the same whatever notifications stand before the log, and leaves them there (R39). -/
theorem step_prependLog (log : List Event) (s : State) :
    step (s.prependLog log) = onNext (State.prependLog log) (step s) := by
  obtain ⟨hs, hstep⟩ | ⟨op, ops, hs, hstep⟩ := step_cases s
  · rw [hstep, step_next (s := s.prependLog log) hs, next_prependLog]
  · rw [hstep, step_listed (s := s.prependLog log) hs]
    exact hostStep_prependLog log op (s.setSchedule ops)

/-- The state with an empty event log. -/
def State.clearLog (s : State) : State := { s with events := [] }

theorem prependLog_clearLog (log : List Event) (s : State) : s.clearLog.prependLog log = { s with events := log } := by
  simp [State.prependLog, State.withUnread, State.clearLog]

/-- Every step is the step from an empty log, with the old log put before the notifications it emits. -/
theorem step_eq_prependLog (s : State) : step s = onNext (State.prependLog s.events) (step s.clearLog) := by
  rw [← step_prependLog, prependLog_clearLog]

/-- Settles O51: the log after a step is the old log with the notifications of the step after it. -/
theorem eventLogOnlyGrows : Obligations.EventLogOnlyGrows := by
  intro s t h
  rw [step_eq_prependLog] at h
  cases hb : step s.clearLog with
  | next u =>
    rw [hb] at h
    cases h
    exact List.prefix_append s.events u.events
  | fault r => rw [hb] at h; cases h
  | refused r => rw [hb] at h; cases h

/-- Settles O52: both steps are the step from an empty log, each with its own log put before the notifications. -/
theorem eventLogIsNeverRead : Obligations.EventLogIsNeverRead := by
  intro s log
  rw [← prependLog_clearLog, step_prependLog, step_eq_prependLog s]
  cases step s.clearLog with
  | next u => simp [onNext, State.prependLog, State.withUnread]
  | fault r => rfl
  | refused r => rfl

/-! ### The state after Reset -/

/-- Settles O1: each element of the reset state is read off, memory through what an unlisted address reads as. -/
theorem resetStateHoldsTheStatedValues : Obligations.ResetStateHoldsTheStatedValues := by
  refine ⟨rfl, fun cfg => ⟨_, rfl, rfl, fun r => ?_, rfl, rfl, rfl, rfl, rfl, fun a h => ?_, fun a h _ => ?_,
    getPixel_blank, fun k => ?_, rfl, rfl⟩⟩
  · simp [State.getV, State.resetWith]
  · simp [State.readByte, State.resetWith, memRead, memLookup, resetByte, h]
  · have past : ¬ a < 80 := by omega
    simp [State.readByte, State.resetWith, memRead, memLookup, resetByte, past]
  · simp [State.keyDown, State.resetWith]

end Sys2Proof.Machine
end


section
/-! PROOFS. Memory: two memories in canonical form are compared by their reads, no instruction changes a byte it does
not store to, and a store into code is what the next fetch reads. -/

namespace Sys2Proof.Machine

open Sys2Proof.Claims

/-! ### The canonical form is unique -/

theorem memLookup_cons (k : Nat) (b : Byte) (m : Memory) (a : Nat) :
    memLookup ((k, b) :: m) a = if k = a then some b else memLookup m a := rfl

/-- In canonical form the listed bytes are exactly the reads that differ from what Reset leaves (R51). -/
theorem memLookup_eq_some_iff {font : Font} {m : Memory} (h : m.wf font = true) {a : Nat} {b : Byte} :
    memLookup m a = some b ↔ memRead font m a = b ∧ b ≠ resetByte font a := by
  constructor
  · intro listed
    exact ⟨by rw [memRead, listed, Option.getD_some], memLookup_ne_reset h listed⟩
  · rintro ⟨rfl, hb⟩
    cases unlisted : memLookup m a with
    | none => simp [memRead, unlisted] at hb
    | some c => simp [memRead, unlisted]

/-- The listed addresses rise, so the first entry of each list is the lowest address that either lists. -/
theorem eq_of_memLookup_eq {font : Font} {lo lo' : Nat} {m m' : Memory} (h : memWfFrom font lo m = true)
    (h' : memWfFrom font lo' m' = true) (same : ∀ a, memLookup m a = memLookup m' a) : m = m' := by
  induction m generalizing lo lo' m' with
  | nil =>
    cases m' with
    | nil => rfl
    | cons c m' => simpa [memLookup] using same c.1
  | cons c m ih =>
    cases m' with
    | nil => simpa [memLookup] using same c.1
    | cons c' m' =>
      obtain ⟨k, b⟩ := c
      obtain ⟨k', b'⟩ := c'
      obtain ⟨-, -, -, htail⟩ := (memWfFrom_cons ..).mp h
      obtain ⟨-, -, -, htail'⟩ := (memWfFrom_cons ..).mp h'
      simp only [memLookup_cons] at same
      have hk : k = k' := by
        rcases Nat.lt_trichotomy k k' with hlt | heq | hgt
        · simpa [hlt.ne', memLookup_below htail' (Nat.lt_succ_of_lt hlt)] using same k
        · exact heq
        · simpa [hgt.ne', memLookup_below htail (Nat.lt_succ_of_lt hgt)] using same k'
      subst hk
      have hb : b = b' := by simpa using same k
      have tails : ∀ a, memLookup m a = memLookup m' a := fun a => by
        by_cases ha : k = a
        · subst ha
          rw [memLookup_below htail (Nat.lt_succ_self k), memLookup_below htail' (Nat.lt_succ_self k)]
        · simpa [ha] using same a
      rw [hb, ih htail htail' tails]

/-- Settles O59: equal reads give equal entries at every address, and so equal lists. -/
theorem canonicalMemoryIsUnique : Obligations.CanonicalMemoryIsUnique := by
  intro font m m' h h' reads
  refine eq_of_memLookup_eq h h' fun a => Option.ext fun b => ?_
  rw [memLookup_eq_some_iff h, memLookup_eq_some_iff h', reads]

/-! ### A store of an instruction -/

/-- What a store whose range check passes changes: the bytes land from I on, and every other address reads as before
(R55, R180). -/
theorem writeBytes_readByte {s : State} {bs : List Byte} (hm : s.mem.wf s.cfg.font = true)
    (hr : dataInRange s bs.length = true) (a : Nat) :
    (s.writeBytes (dataAddr s 0) bs).readByte a =
      if dataAddr s 0 ≤ a then (bs[a - dataAddr s 0]?).getD (s.readByte a) else s.readByte a :=
  memRead_writeList hm ((dataInRange_iff s bs.length).mp hr).2 a

/-- Byte `k` of a store is what its address then reads as. -/
theorem writeBytes_readByte_stored {s : State} {bs : List Byte} (hm : s.mem.wf s.cfg.font = true)
    (hr : dataInRange s bs.length = true) (k : Nat) (hk : k < bs.length) :
    (s.writeBytes (dataAddr s 0) bs).readByte (dataAddr s k) = bs[k] := by
  rw [writeBytes_readByte hm hr]
  simp [dataAddr, hk]

/-- An address that a store whose range check passes does not reach reads as before (R55). -/
theorem writeBytes_readByte_of_outside {s : State} {bs : List Byte} (hm : s.mem.wf s.cfg.font = true)
    (hr : dataInRange s bs.length = true) {a : Nat} (outside : dataAddr s 0 ≤ a → dataAddr s bs.length ≤ a) :
    (s.writeBytes (dataAddr s 0) bs).readByte a = s.readByte a := by
  rw [writeBytes_readByte hm hr]
  split
  next above =>
    have past : bs.length ≤ a - dataAddr s 0 := Nat.le_sub_of_add_le' (outside above)
    rw [List.getElem?_eq_none past, Option.getD_none]
  next => rfl

/-- Settles O49: only FX33 and FX55 change memory, and what they write lies in the addresses they store to. -/
theorem memoryFrame : Obligations.MemoryFrame := by
  intro i s t hm h a ha
  obtain ⟨hcfg, -, -, -, -, -, -, hmem, -⟩ := instructionsWriteOnlyTheirElements i s t h
  by_cases same : t.mem = s.mem
  · rw [State.readByte, State.readByte, hcfg, same]
  · obtain ⟨x, rfl⟩ | ⟨x, rfl⟩ := hmem same
    · obtain ⟨hr, rfl⟩ | rfl := withDataRange_cases h
      · exact writeBytes_readByte_of_outside (bs := bcdDigits (s.getV x)) hm hr fun above =>
          not_le.mp fun below => ha ⟨above, below⟩
      · rfl
    · obtain ⟨hr, rfl⟩ | rfl := withDataRange_cases h
      · rw [← regValues_length s x] at hr
        refine writeBytes_readByte_of_outside hm hr fun above => ?_
        rw [regValues_length]
        exact not_le.mp fun below => ha ⟨above, below⟩
      · rfl

/-! ### A store into code -/

theorem exec_storeRegs_inRange {s : State} {x : Reg} (hr : dataInRange s (x.val + 1) = true) :
    exec (.storeRegs x) s =
      .next ((s.writeBytes (dataAddr s 0) (regValues s x)).setI (indexAfterTransfer s x)).advance := if_pos hr

/-- Byte `r` from I on that FX55 stores is V[r], for V0 to VX (R185). -/
theorem writeBytes_regValues_readByte {s : State} {x r : Reg} (hm : s.mem.wf s.cfg.font = true)
    (hr : dataInRange s (x.val + 1) = true) (hrx : r.val ≤ x.val) :
    (s.writeBytes (dataAddr s 0) (regValues s x)).readByte (dataAddr s r.val) = s.getV r := by
  have hk : r.val < (regValues s x).length := by rw [regValues_length]; omega
  rw [← regValues_length s x] at hr
  rw [writeBytes_readByte_stored hm hr r.val hk, regValues_getElem]

/-- Settles O32: FX55 leaves PC at I, where the first two bytes it stored are V0 and V1, so those are fetched. -/
theorem storeIntoCodeRunsNext : Obligations.StoreIntoCodeRunsNext := by
  intro s t x i hm hfault hsched hx hi hend hw h
  have hr : dataInRange s (x.val + 1) = true := (dataInRange_iff s (x.val + 1)).mpr ⟨by omega, by omega⟩
  have ht := Host.Outcome.next.inj ((exec_storeRegs_inRange hr).symm.trans h)
  have stored : ∀ r : Reg, r.val ≤ x.val → t.readByte (dataAddr s r.val) = s.getV r := fun r hrx => by
    rw [← ht, advance_readByte, setI_readByte, writeBytes_regValues_readByte hm hr hrx]
  have hpc : t.pc.toNat = dataAddr s 0 := by
    rw [← ht, advance_pc, setI_pc, writeBytes_pc, toNat_add_two (by omega)]
    exact hi.symm
  have fetched : fetchWord t = s.getV 0 ++ s.getV 1 := by
    rw [fetchWord, hpc]
    exact congrArg₂ wordOfBytes (stored 0 (Nat.zero_le _)) (stored 1 hx)
  have running : t.fault = none := by simpa [← ht] using hfault
  have fetchable : t.pc.toNat ≤ 0x0FFE := by rw [hpc, dataAddr]; omega
  rw [step_next (by simpa [← ht] using hsched), next_legal running fetchable (fetched ▸ hw)]

end Sys2Proof.Machine
end

section
/-! PROOFS. Decoding, said once for each family (R87 to R93): what it answers and which words it rejects; and the round
trip between words and instructions. -/

namespace Sys2Proof

/-- The values of a nibble, as the rules R87 and R90 list them. -/
theorem nibble_cases : ∀ b : BitVec 4, b = 0x0#4 ∨ b = 0x1#4 ∨ b = 0x2#4 ∨ b = 0x3#4 ∨ b = 0x4#4 ∨ b = 0x5#4 ∨
    b = 0x6#4 ∨ b = 0x7#4 ∨ b = 0x8#4 ∨ b = 0x9#4 ∨ b = 0xA#4 ∨ b = 0xB#4 ∨ b = 0xC#4 ∨ b = 0xD#4 ∨ b = 0xE#4 ∨
    b = 0xF#4 := by decide

/-! ### The family that the top nibble selects (R87) -/

section
variable {w : Word}

@[simp] theorem decodeWord_system (h : fieldOp w = 0x0#4) : decodeWord w = decodeSystem w := by simp [decodeWord, h]

@[simp] theorem decodeWord_jp (h : fieldOp w = 0x1#4) : decodeWord w = .ok (.jp (fieldNNN w)) := by simp [decodeWord, h]

@[simp] theorem decodeWord_call (h : fieldOp w = 0x2#4) : decodeWord w = .ok (.call (fieldNNN w)) := by
  simp [decodeWord, h]

@[simp] theorem decodeWord_seImm (h : fieldOp w = 0x3#4) : decodeWord w = .ok (.seImm (fieldX w) (fieldNN w)) := by
  simp [decodeWord, h]

@[simp] theorem decodeWord_sneImm (h : fieldOp w = 0x4#4) : decodeWord w = .ok (.sneImm (fieldX w) (fieldNN w)) := by
  simp [decodeWord, h]

@[simp] theorem decodeWord_seReg (h : fieldOp w = 0x5#4) :
    decodeWord w = if fieldN w = 0x0#4 then .ok (.seReg (fieldX w) (fieldY w)) else .error .skipSelector := by
  simp [decodeWord, h]

@[simp] theorem decodeWord_ldImm (h : fieldOp w = 0x6#4) : decodeWord w = .ok (.ldImm (fieldX w) (fieldNN w)) := by
  simp [decodeWord, h]

@[simp] theorem decodeWord_addImm (h : fieldOp w = 0x7#4) : decodeWord w = .ok (.addImm (fieldX w) (fieldNN w)) := by
  simp [decodeWord, h]

@[simp] theorem decodeWord_alu (h : fieldOp w = 0x8#4) : decodeWord w = decodeAlu w := by simp [decodeWord, h]

@[simp] theorem decodeWord_sneReg (h : fieldOp w = 0x9#4) :
    decodeWord w = if fieldN w = 0x0#4 then .ok (.sneReg (fieldX w) (fieldY w)) else .error .skipSelector := by
  simp [decodeWord, h]

@[simp] theorem decodeWord_ldI (h : fieldOp w = 0xA#4) : decodeWord w = .ok (.ldI (fieldNNN w)) := by
  simp [decodeWord, h]

@[simp] theorem decodeWord_jpV0 (h : fieldOp w = 0xB#4) : decodeWord w = .ok (.jpV0 (fieldNNN w)) := by
  simp [decodeWord, h]

@[simp] theorem decodeWord_rnd (h : fieldOp w = 0xC#4) : decodeWord w = .ok (.rnd (fieldX w) (fieldNN w)) := by
  simp [decodeWord, h]

@[simp] theorem decodeWord_drw (h : fieldOp w = 0xD#4) :
    decodeWord w = .ok (.drw (fieldX w) (fieldY w) (fieldN w).toNat) := by simp [decodeWord, h]

@[simp] theorem decodeWord_key (h : fieldOp w = 0xE#4) : decodeWord w = decodeKey w := by simp [decodeWord, h]

@[simp] theorem decodeWord_misc (h : fieldOp w = 0xF#4) : decodeWord w = decodeMisc w := by simp [decodeWord, h]

/-! ### The instruction that a selector names (R88, R90 to R92) -/

@[simp] theorem decodeAlu_ldReg (h : fieldN w = 0x0#4) : decodeAlu w = .ok (.ldReg (fieldX w) (fieldY w)) := by
  simp [decodeAlu, h]

@[simp] theorem decodeAlu_orReg (h : fieldN w = 0x1#4) : decodeAlu w = .ok (.orReg (fieldX w) (fieldY w)) := by
  simp [decodeAlu, h]

@[simp] theorem decodeAlu_andReg (h : fieldN w = 0x2#4) : decodeAlu w = .ok (.andReg (fieldX w) (fieldY w)) := by
  simp [decodeAlu, h]

@[simp] theorem decodeAlu_xorReg (h : fieldN w = 0x3#4) : decodeAlu w = .ok (.xorReg (fieldX w) (fieldY w)) := by
  simp [decodeAlu, h]

@[simp] theorem decodeAlu_addReg (h : fieldN w = 0x4#4) : decodeAlu w = .ok (.addReg (fieldX w) (fieldY w)) := by
  simp [decodeAlu, h]

@[simp] theorem decodeAlu_subReg (h : fieldN w = 0x5#4) : decodeAlu w = .ok (.subReg (fieldX w) (fieldY w)) := by
  simp [decodeAlu, h]

@[simp] theorem decodeAlu_shrReg (h : fieldN w = 0x6#4) : decodeAlu w = .ok (.shrReg (fieldX w) (fieldY w)) := by
  simp [decodeAlu, h]

@[simp] theorem decodeAlu_subnReg (h : fieldN w = 0x7#4) : decodeAlu w = .ok (.subnReg (fieldX w) (fieldY w)) := by
  simp [decodeAlu, h]

@[simp] theorem decodeAlu_shlReg (h : fieldN w = 0xE#4) : decodeAlu w = .ok (.shlReg (fieldX w) (fieldY w)) := by
  simp [decodeAlu, h]

@[simp] theorem decodeKey_skp (h : fieldNN w = 0x9E#8) : decodeKey w = .ok (.skp (fieldX w)) := by simp [decodeKey, h]

@[simp] theorem decodeKey_sknp (h : fieldNN w = 0xA1#8) : decodeKey w = .ok (.sknp (fieldX w)) := by simp [decodeKey, h]

@[simp] theorem decodeMisc_ldDT (h : fieldNN w = 0x07#8) : decodeMisc w = .ok (.ldDT (fieldX w)) := by
  simp [decodeMisc, h]

@[simp] theorem decodeMisc_waitKey (h : fieldNN w = 0x0A#8) : decodeMisc w = .ok (.waitKey (fieldX w)) := by
  simp [decodeMisc, h]

@[simp] theorem decodeMisc_setDT (h : fieldNN w = 0x15#8) : decodeMisc w = .ok (.setDT (fieldX w)) := by
  simp [decodeMisc, h]

@[simp] theorem decodeMisc_setST (h : fieldNN w = 0x18#8) : decodeMisc w = .ok (.setST (fieldX w)) := by
  simp [decodeMisc, h]

@[simp] theorem decodeMisc_addI (h : fieldNN w = 0x1E#8) : decodeMisc w = .ok (.addI (fieldX w)) := by
  simp [decodeMisc, h]

@[simp] theorem decodeMisc_ldFont (h : fieldNN w = 0x29#8) : decodeMisc w = .ok (.ldFont (fieldX w)) := by
  simp [decodeMisc, h]

@[simp] theorem decodeMisc_bcd (h : fieldNN w = 0x33#8) : decodeMisc w = .ok (.bcd (fieldX w)) := by
  simp [decodeMisc, h]

@[simp] theorem decodeMisc_storeRegs (h : fieldNN w = 0x55#8) : decodeMisc w = .ok (.storeRegs (fieldX w)) := by
  simp [decodeMisc, h]

@[simp] theorem decodeMisc_loadRegs (h : fieldNN w = 0x65#8) : decodeMisc w = .ok (.loadRegs (fieldX w)) := by
  simp [decodeMisc, h]

/-! ### The words that each family rejects (R93) -/

theorem decodeSystem_error_iff {r : DecodeReject} :
    decodeSystem w = .error r ↔ r = .system ∧ w ≠ 0x00E0#16 ∧ w ≠ 0x00EE#16 := by
  rw [decodeSystem]
  split
  · simp [*]
  · split <;> simp [*, eq_comm (a := r)]

theorem decodeAlu_error_iff {r : DecodeReject} :
    decodeAlu w = .error r ↔ r = .aluSelector ∧ 0x8 ≤ (fieldN w).toNat ∧ (fieldN w).toNat ≠ 0xE := by
  obtain h | h | h | h | h | h | h | h | h | h | h | h | h | h | h | h := nibble_cases (fieldN w) <;>
    simp [decodeAlu, h, eq_comm (a := r)]

theorem decodeKey_error_iff {r : DecodeReject} :
    decodeKey w = .error r ↔ r = .keySelector ∧ (fieldNN w).toNat ∉ [0x9E, 0xA1] := by
  rw [decodeKey]
  split <;> simp_all [eq_comm (a := r)]

theorem decodeMisc_error_iff {r : DecodeReject} :
    decodeMisc w = .error r ↔
      r = .miscSelector ∧ (fieldNN w).toNat ∉ [0x07, 0x0A, 0x15, 0x18, 0x1E, 0x29, 0x33, 0x55, 0x65] := by
  simp only [decodeMisc]
  split <;> simp_all [eq_comm (a := r)]

theorem skipSelector_error_iff {i : Instr} {r : DecodeReject} :
    (if fieldN w = 0x0#4 then Except.ok i else .error .skipSelector) = .error r ↔
      r = .skipSelector ∧ (fieldN w).toNat ≠ 0 := by
  simp only [← BitVec.toNat_inj]
  split <;> simp_all [eq_comm (a := r)]

/-- The families that reject words, each with its own words (R88 to R93). -/
theorem decodeWord_error_iff {r : DecodeReject} :
    decodeWord w = .error r ↔
      (fieldOp w).toNat = 0x0 ∧ decodeSystem w = .error r ∨
      (fieldOp w).toNat = 0x5 ∧ r = .skipSelector ∧ (fieldN w).toNat ≠ 0 ∨
      (fieldOp w).toNat = 0x8 ∧ decodeAlu w = .error r ∨
      (fieldOp w).toNat = 0x9 ∧ r = .skipSelector ∧ (fieldN w).toNat ≠ 0 ∨
      (fieldOp w).toNat = 0xE ∧ decodeKey w = .error r ∨
      (fieldOp w).toNat = 0xF ∧ decodeMisc w = .error r := by
  obtain h | h | h | h | h | h | h | h | h | h | h | h | h | h | h | h := nibble_cases (fieldOp w) <;>
    simp [h, skipSelector_error_iff]

end

/-! ### The fields as numbers -/

section
variable (w : Word)

theorem fieldOp_toNat : (fieldOp w).toNat = w.toNat / 0x1000 := by
  have : w.toNat / 0x1000 < 16 := by omega
  simpa [fieldOp, Nat.shiftRight_eq_div_pow] using this

theorem fieldN_toNat : (fieldN w).toNat = w.toNat % 0x10 := by simp [fieldN]

theorem fieldNN_toNat : (fieldNN w).toNat = w.toNat % 0x100 := by simp [fieldNN]

end

/-! ### The family table -/

/-- R93 lists selectors as numbers, the table as bytes. -/
theorem toNat_notMem_map {b : Byte} {l : List Byte} (h : b ∉ l) : b.toNat ∉ l.map BitVec.toNat :=
  fun hb => h ((List.mem_map_of_injective fun _ _ => BitVec.eq_of_toNat_eq).mp hb)

theorem aluSelector_rejected : ∀ n ∈ [0x8#4, 0x9#4, 0xA#4, 0xB#4, 0xC#4, 0xD#4, 0xF#4],
    0x8 ≤ n.toNat ∧ n.toNat ≠ 0xE := by decide

/-- Settles O5: the equation of each family, and in the families with a selector the equation of each instruction; the
composed NNN is the low twelve bits. -/
theorem decodeFollowsTheFamilyTable : Obligations.DecodeFollowsTheFamilyTable := by
  intro w op x y n nn nnn
  have hnnn : fieldNNN w = nnn := fieldNNN_eq w
  refine ⟨?_, ?_, ?_, ?_, ?_, ?_, ?_, ?_, ?_, ?_, ?_, ?_, ?_, ?_, ?_, ?_, ?_, ?_⟩
  · rintro rfl; rfl
  · rintro rfl; rfl
  · exact fun h hcls hret => (decodeWord_system h).trans (decodeSystem_error_iff.mpr ⟨rfl, hcls, hret⟩)
  · exact fun h => hnnn ▸ decodeWord_jp h
  · exact fun h => hnnn ▸ decodeWord_call h
  · exact decodeWord_seImm
  · exact decodeWord_sneImm
  · exact decodeWord_seReg
  · exact decodeWord_ldImm
  · exact decodeWord_addImm
  · intro h
    rw [decodeWord_alu h]
    exact ⟨decodeAlu_ldReg, decodeAlu_orReg, decodeAlu_andReg, decodeAlu_xorReg, decodeAlu_addReg, decodeAlu_subReg,
      decodeAlu_shrReg, decodeAlu_subnReg, decodeAlu_shlReg,
      fun hn => decodeAlu_error_iff.mpr ⟨rfl, aluSelector_rejected n hn⟩⟩
  · exact decodeWord_sneReg
  · exact fun h => hnnn ▸ decodeWord_ldI h
  · exact fun h => hnnn ▸ decodeWord_jpV0 h
  · exact decodeWord_rnd
  · exact decodeWord_drw
  · intro h
    rw [decodeWord_key h]
    exact ⟨decodeKey_skp, decodeKey_sknp, fun hnn => decodeKey_error_iff.mpr ⟨rfl, toNat_notMem_map hnn⟩⟩
  · intro h
    rw [decodeWord_misc h]
    exact ⟨decodeMisc_ldDT, decodeMisc_waitKey, decodeMisc_setDT, decodeMisc_setST, decodeMisc_addI, decodeMisc_ldFont,
      decodeMisc_bcd, decodeMisc_storeRegs, decodeMisc_loadRegs,
      fun hnn => decodeMisc_error_iff.mpr ⟨rfl, toNat_notMem_map hnn⟩⟩

/-- Settles O6: the rejected words of each family, with the fields read as numbers. -/
theorem illegalWordsAreExactlyTheTables : Obligations.IllegalWordsAreExactlyTheTables := by
  intro w
  have hsystem : w.toNat / 0x1000 = 0 ∧ w ≠ 0x00E0#16 ∧ w ≠ 0x00EE#16 ↔
      w.toNat ≤ 0x0FFF ∧ w.toNat ≠ 0x00E0 ∧ w.toNat ≠ 0x00EE := by
    rw [ne_eq, ne_eq, ← BitVec.toNat_inj, ← BitVec.toNat_inj]
    simp only [BitVec.toNat_ofNat]
    omega
  simp only [decodeWord_error_iff, decodeSystem_error_iff, decodeAlu_error_iff, decodeKey_error_iff,
    decodeMisc_error_iff, fieldOp_toNat, fieldN_toNat, fieldNN_toNat, exists_or, exists_and_left, exists_eq_left,
    hsystem]

/-! ### Encoding and decoding -/

/-- Decoding the word of a well-formed instruction gives it back: each format's fields read back its operands. -/
theorem decodeWord_encodeWord {i : Instr} (h : i.wellFormed = true) : decodeWord (encodeWord i) = .ok i := by
  cases i
  case cls | ret => rfl
  -- format NNN
  case jp | call | ldI | jpV0 => simp [encodeWord]
  -- format XNN
  case seImm | sneImm | ldImm | addImm | rnd => simp [encodeWord]
  -- format XYS
  case seReg | sneReg | ldReg | orReg | andReg | xorReg | addReg | subReg | shrReg | subnReg | shlReg =>
    simp [encodeWord]
  -- format XYN: the row count fits its nibble
  case drw x y n =>
    have hn : n < 16 := Nat.lt_succ_of_le (of_decide_eq_true h)
    simp [encodeWord, hn]
  -- format XS
  case skp | sknp | ldDT | waitKey | setDT | setST | addI | ldFont | bcd | storeRegs | loadRegs => simp [encodeWord]

/-- Settles O7: the bytes of a word make it up again, and the word of an instruction decodes to it. -/
theorem decodeOfEncodeIsTheInstruction : Obligations.DecodeOfEncodeIsTheInstruction := by
  intro i rest h
  calc decode (encode i ++ rest)
      = (decodeWord (wordOfBytes ((encodeWord i).extractLsb' 8 8) ((encodeWord i).extractLsb' 0 8))).map
          fun i => (i, rest) := decode_pair _ _ rest
    _ = .ok (i, rest) := by rw [wordOfBytes_bytes, decodeWord_encodeWord h]; rfl

section
variable {w : Word} {op : BitVec 4}

theorem encNNN_of_fieldOp (hop : fieldOp w = op) : encNNN op (fieldNNN w) = w := by rw [← hop, encNNN_fields]

theorem encXNN_of_fieldOp (hop : fieldOp w = op) : encXNN op (fieldX w) (fieldNN w) = w := by rw [← hop, encXNN_fields]

theorem encXNN_of_selector {nn : Byte} (hop : fieldOp w = op) (hnn : (fieldNN w).toNat = nn.toNat) :
    encXNN op (fieldX w) nn = w := by rw [← BitVec.eq_of_toNat_eq hnn, encXNN_of_fieldOp hop]

theorem encXYN_of_selector {n : BitVec 4} (hop : fieldOp w = op) (hn : (fieldN w).toNat = n.toNat) :
    encXYN op (fieldX w) (fieldY w) n = w := by rw [← hop, ← BitVec.eq_of_toNat_eq hn, encXYN_fields]

variable {i : Instr}

theorem encodes_of_decodeSystem (h : decodeSystem w = .ok i) : i.wellFormed = true ∧ encodeWord i = w := by
  rw [decodeSystem] at h
  split at h
  case isTrue hw => cases h; exact ⟨rfl, hw.symm⟩
  case isFalse =>
    split at h <;> cases h
    case isTrue hw => exact ⟨rfl, hw.symm⟩

theorem encodes_of_decodeAlu (hop : fieldOp w = 0x8#4) (h : decodeAlu w = .ok i) :
    i.wellFormed = true ∧ encodeWord i = w := by
  simp only [decodeAlu] at h
  split at h <;> cases h
  all_goals next hn => exact ⟨rfl, encXYN_of_selector hop hn⟩

theorem encodes_of_decodeKey (hop : fieldOp w = 0xE#4) (h : decodeKey w = .ok i) :
    i.wellFormed = true ∧ encodeWord i = w := by
  rw [decodeKey] at h
  split at h <;> cases h
  all_goals next hnn => exact ⟨rfl, encXNN_of_selector hop hnn⟩

theorem encodes_of_decodeMisc (hop : fieldOp w = 0xF#4) (h : decodeMisc w = .ok i) :
    i.wellFormed = true ∧ encodeWord i = w := by
  simp only [decodeMisc] at h
  split at h <;> cases h
  all_goals next hnn => exact ⟨rfl, encXNN_of_selector hop hnn⟩

end

/-- Settles O8: family by family, the instruction carries the word's fields, and these make the word up again. -/
theorem encodeOfDecodeIsTheWord : Obligations.EncodeOfDecodeIsTheWord := by
  intro w i h
  obtain hop | hop | hop | hop | hop | hop | hop | hop | hop | hop | hop | hop | hop | hop | hop | hop :=
    nibble_cases (fieldOp w)
  · exact encodes_of_decodeSystem (decodeWord_system hop ▸ h)
  · cases decodeWord_jp hop ▸ h; exact ⟨rfl, encNNN_of_fieldOp hop⟩
  · cases decodeWord_call hop ▸ h; exact ⟨rfl, encNNN_of_fieldOp hop⟩
  · cases decodeWord_seImm hop ▸ h; exact ⟨rfl, encXNN_of_fieldOp hop⟩
  · cases decodeWord_sneImm hop ▸ h; exact ⟨rfl, encXNN_of_fieldOp hop⟩
  · rw [decodeWord_seReg hop] at h
    split at h <;> cases h
    next hn => exact ⟨rfl, encXYN_of_selector hop (congrArg _ hn)⟩
  · cases decodeWord_ldImm hop ▸ h; exact ⟨rfl, encXNN_of_fieldOp hop⟩
  · cases decodeWord_addImm hop ▸ h; exact ⟨rfl, encXNN_of_fieldOp hop⟩
  · exact encodes_of_decodeAlu hop (decodeWord_alu hop ▸ h)
  · rw [decodeWord_sneReg hop] at h
    split at h <;> cases h
    next hn => exact ⟨rfl, encXYN_of_selector hop (congrArg _ hn)⟩
  · cases decodeWord_ldI hop ▸ h; exact ⟨rfl, encNNN_of_fieldOp hop⟩
  · cases decodeWord_jpV0 hop ▸ h; exact ⟨rfl, encNNN_of_fieldOp hop⟩
  · cases decodeWord_rnd hop ▸ h; exact ⟨rfl, encXNN_of_fieldOp hop⟩
  · cases decodeWord_drw hop ▸ h
    exact ⟨decide_eq_true (Nat.le_of_lt_succ (fieldN w).isLt), encXYN_of_selector hop (by simp)⟩
  · exact encodes_of_decodeKey hop (decodeWord_key hop ▸ h)
  · exact encodes_of_decodeMisc hop (decodeWord_misc hop ▸ h)

/-- Settles O9: each word is evaluated. -/
theorem writtenWordsDecodeRight : Obligations.WrittenWordsDecodeRight := by
  unfold Obligations.WrittenWordsDecodeRight
  decide

end Sys2Proof
end

section
/-! PROOFS. One Next and the step that runs it (R60, R81), and the step after a word is placed at PC. -/

namespace Sys2Proof.Machine

/-! ### Next -/

/-- Settles O4: the four ways of Next, for the step that no host operation is listed for. -/
theorem nextMakesItsChecksInOrder : Obligations.NextMakesItsChecksInOrder := by
  intro s hsched
  rw [step_next hsched]
  refine ⟨fun f => next_faulted, fun hf => ⟨next_outOfRange hf, fun hp w hw => ?_⟩⟩
  obtain rfl : w = fetchWord s := hw
  exact ⟨fun r => next_illegal hf hp, fun i => next_legal hf hp⟩

theorem decodeWord_of_decode_pair {hi lo : Byte} {i : Instr} (h : decode [hi, lo] = .ok (i, [])) :
    decodeWord (wordOfBytes hi lo) = .ok i := by
  rw [decode_pair] at h
  cases hw : decodeWord (wordOfBytes hi lo) <;> rw [hw] at h <;> cases h
  rfl

/-- A listed Next is used up, and is the Next of the state left (R81). -/
theorem step_listedNext {s : State} {ops : List HostOp} (h : s.schedule = .next :: ops) :
    step s = next (s.setSchedule ops) := step_listed h

/-- Settles O3: Next is exec of what the bytes at PC decode to, listed or by default. -/
theorem stepRunsTheDecodedInstruction : Obligations.StepRunsTheDecodedInstruction := by
  intro s i hf hp hdecode
  have hw : decodeWord (fetchWord s) = .ok i := decodeWord_of_decode_pair hdecode
  constructor
  · intro hsched
    rw [step_next hsched, next_legal hf hp hw]
  · intro ops hsched
    have hrun : next (s.setSchedule ops) = exec i (s.setSchedule ops) := next_legal hf hp hw
    exact (step_listedNext hsched).trans hrun

/-! ### The word placed at PC -/

/-- The state of `placeWord` with its Next used up: the one on which that Next runs. -/
def placed (s : State) (w : Word) : State := (placeWord s w).setSchedule s.schedule

theorem withFetchWord_toNat (s : State) (w : Word) : s.withFetchWord 16 w.toNat = placeWord s w := by
  rw [State.withFetchWord, Nat.mod_eq_of_lt w.isLt, BitVec.ofNat_toNat, BitVec.setWidth_eq]

theorem step_placeWord (s : State) (w : Word) : step (placeWord s w) = next (placed s w) := step_listedNext rfl

theorem placed_pc (s : State) (w : Word) : (placed s w).pc = if fetchInRange s then s.pc else 0x0200 := rfl

theorem placed_pc_of_le {s : State} (h : s.pc.toNat ≤ 0x0FFE) (w : Word) : (placed s w).pc = s.pc :=
  if_pos ((fetchInRange_iff s).mpr h)

theorem placed_pc_le (s : State) (w : Word) : (placed s w).pc.toNat ≤ 0x0FFE := by
  rw [placed_pc]
  split
  case isTrue h => exact (fetchInRange_iff s).mp h
  case isFalse => decide

/-- Placing a word changes the two bytes at PC and no other (R58). -/
theorem placed_readByte {s : State} (hm : s.mem.wf s.cfg.font = true) (w : Word) (a : Nat) :
    (placed s w).readByte a =
      if (placed s w).pc.toNat ≤ a then ((bytesOfWord w)[a - (placed s w).pc.toNat]?).getD (s.readByte a)
      else s.readByte a :=
  have fits : (placed s w).pc.toNat + 2 ≤ memSize := Nat.add_le_add_right (placed_pc_le s w) 2
  memRead_writeList hm fits a

theorem fetchWord_placed {s : State} (hm : s.mem.wf s.cfg.font = true) (w : Word) : fetchWord (placed s w) = w := by
  rw [fetchWord, placed_readByte hm, placed_readByte hm]
  simp [bytesOfWord]

theorem placed_readByte_of_ne {s : State} (hm : s.mem.wf s.cfg.font = true) (w : Word) {a : Nat}
    (h0 : a ≠ (placed s w).pc.toNat) (h1 : a ≠ (placed s w).pc.toNat + 1) : (placed s w).readByte a = s.readByte a := by
  rw [placed_readByte hm]
  split
  case isTrue h =>
    have past : 2 ≤ a - (placed s w).pc.toNat := by omega
    rw [List.getElem?_eq_none (l := bytesOfWord w) past, Option.getD_none]
  case isFalse => rfl

/-- Settles O10: the placed word is fetched, and decoding gives the instruction it encodes. -/
theorem placedInstructionRunsNext : Obligations.PlacedInstructionRunsNext := by
  intro s i hi hm
  refine ⟨placed s (encodeWord i), ?_, rfl, fun h => placed_pc_of_le h _, fun a => placed_readByte_of_ne hm _⟩
  have hw : decodeWord (fetchWord (placed s (encodeWord i))) = .ok i := by
    rw [fetchWord_placed hm, decodeWord_encodeWord hi]
  rw [withFetchWord_toNat, step_placeWord, next_legal rfl (placed_pc_le s _) hw]

end Sys2Proof.Machine
end

section
/-! PROOFS. Screen clear and control transfer (R111 to R115): what each instruction of the family answers. -/

namespace Sys2Proof.Machine

/-! ### The instructions with a check of their own, by the case of the check -/

theorem exec_ret_pop {s : State} {top : Word} {below : List Word} (h : s.stack = top :: below) :
    exec .ret s = .next ((s.setStack below).setPc top) := by
  simp only [exec, execRet, h]

theorem exec_ret_empty {s : State} (h : s.stack = []) :
    exec .ret s = .next (s.setFault (some (.stackUnderflow s.pc))) := by
  simp only [exec, execRet, h, State.raise]

theorem stackFull_eq_false {depth : StackDepth} {l : List Word}
    (h : ∀ limit positive, depth = .bounded limit positive → l.length ≠ limit) : stackFull depth l = false := by
  rw [Bool.eq_false_iff, ne_eq, stackFull_iff]
  rintro ⟨limit, positive, hdepth, hlength⟩
  exact h limit positive hdepth hlength

/-- A call that records no fault pushes the word after it (R114). -/
theorem stack_of_call {s t : State} {nnn : Addr12} (h : exec (.call nnn) s = .next t) (ht : t.fault = none) :
    t.stack = (s.pc + 2) :: s.stack := by
  obtain ⟨-, rfl⟩ | ⟨-, rfl⟩ := exec_call_cases h
  · rfl
  · cases ht

/-- NNN plus a byte does not wrap in 16 bits (R115). -/
theorem addrOperand_add_toNat (nnn : Addr12) (b : Byte) :
    (addrOperand nnn + b.setWidth 16).toNat = nnn.toNat + b.toNat := by
  have hn := nnn.isLt
  have hb := b.isLt
  simp only [addrOperand, BitVec.toNat_add, BitVec.toNat_setWidth]
  omega

/-! ### The obligations -/

/-- Settles O11: 00E0 puts the blank screen, whatever the screen was. -/
theorem clearScreenResult : Obligations.ClearScreenResult := by
  intro s
  exact ⟨((s.setScreen blankScreen).emit [.screenReset]).advance, rfl, rfl, getPixel_blank⟩

/-- Settles O12, by the two cases of the stack. -/
theorem returnResult : Obligations.ReturnResult := by
  intro s
  exact ⟨fun top below => exec_ret_pop, exec_ret_empty⟩

/-- Settles O13: the target is the address operand. -/
theorem jumpResult : Obligations.JumpResult := by
  intro s nnn
  rfl

/-- Settles O14, by whether the stack is full; the address pushed is at most 0x1000. -/
theorem callResult : Obligations.CallResult := by
  intro s nnn
  refine ⟨fun hroom => exec_call_notFull (stackFull_eq_false hroom), fun limit positive hdepth hlength => ?_,
    toNat_add_two⟩
  exact exec_call_full ((stackFull_iff _ _).mpr ⟨limit, positive, hdepth, hlength⟩)

/-- Settles O15: the sum that BNNN computes in 16 bits is the exact one. -/
theorem jumpWithOffsetResult : Obligations.JumpWithOffsetResult := by
  intro s nnn
  exact ⟨addrOperand nnn + (s.getV 0).setWidth 16, rfl, addrOperand_add_toNat nnn (s.getV 0)⟩

/-- Settles O16: the return pops what the call pushed. -/
theorem returnUndoesCall : Obligations.ReturnUndoesCall := by
  intro s t u nnn _ hcall ht hstack
  exact exec_ret_pop (hstack.trans (stack_of_call hcall ht))

end Sys2Proof.Machine
end

section
/-! PROOFS. Conditional skips (R130 to R136): each moves PC by its condition, read as a proposition. -/

namespace Sys2Proof.Machine

/-- A skip writes PC alone (R130): PC + 4 exactly when the proposition that its condition tests holds. -/
theorem skipWhen_eq {c : Bool} {p : Prop} [Decidable p] (h : c = true ↔ p) (s : State) :
    skipWhen c s = { s with pc := if p then s.pc + 4 else s.pc + 2 } :=
  congrArg s.setPc (if_congr h rfl rfl)

/-- A skip on the key that V[x] names tests whether that key is as wanted (R135, R136). -/
theorem skipOnKey_named_eq {s : State} {x k : Reg} (wanted : Bool) (h : (s.getV x).toNat = k.val) :
    skipOnKey x wanted s = .next { s with pc := if s.keyDown k = wanted then s.pc + 4 else s.pc + 2 } := by
  rw [skipOnKey_named wanted h, skipWhen_eq beq_iff_eq]

/-! ### The obligations -/

/-- Settles O17: the conditions are VX = NN and VX ≠ NN. -/
theorem skipOnImmediateResult : Obligations.SkipOnImmediateResult := by
  intro s x nn
  exact ⟨congrArg _ (skipWhen_eq beq_iff_eq s), congrArg _ (skipWhen_eq bne_iff_ne s)⟩

/-- Settles O18: the conditions are VX = VY and VX ≠ VY. -/
theorem skipOnRegistersResult : Obligations.SkipOnRegistersResult := by
  intro s x y
  exact ⟨congrArg _ (skipWhen_eq beq_iff_eq s), congrArg _ (skipWhen_eq bne_iff_ne s)⟩

/-- Settles O19, by whether VX names a key: EX9E wants it down, EXA1 up. -/
theorem skipOnKeyResult : Obligations.SkipOnKeyResult := by
  intro s x
  constructor
  · intro k named
    exact ⟨skipOnKey_named_eq true named, skipOnKey_named_eq false named⟩
  · intro unnamed
    exact ⟨skipOnKey_unnamed true unnamed, skipOnKey_unnamed false unnamed⟩

end Sys2Proof.Machine
end

section
/-! PROOFS. Register loads and arithmetic (R150 to R162): the two shapes of a register write, said once, and the number
that each result and each flag stands for. -/

namespace Sys2Proof.Machine

/-! ### Registers after VX and then VF are written (R24) -/

theorem setResultFlag_getV_dest (s : State) {x : Reg} (r : Byte) (c : Bool) (hx : x ≠ 0xF) :
    (s.setResultFlag x r c).getV x = r :=
  (setResultFlag_getV s x x r c).trans ((if_neg hx).trans (if_pos rfl))

theorem setResultFlag_getV_flag (s : State) (x : Reg) (r : Byte) (c : Bool) :
    (s.setResultFlag x r c).getV 0xF = flagByte c :=
  (setResultFlag_getV s x vF r c).trans (if_pos rfl)

theorem setResultFlag_getV_other (s : State) {x q : Reg} (r : Byte) (c : Bool) (hx : q ≠ x) (hF : q ≠ 0xF) :
    (s.setResultFlag x r c).getV q = s.getV q :=
  (setResultFlag_getV s x q r c).trans ((if_neg hF).trans (if_neg hx))

/-! ### The two shapes -/

/-- One register written: VX has whatever property the byte `r` has, and PC goes on; the rest is unchanged (R26). -/
theorem writeReg_result (s : State) (x : Reg) {r : Byte} {P : Byte → Prop} (result : P r) :
    ∃ t, writeReg x r s = .next t ∧ t = { s with v := t.v, pc := s.pc + 2 } ∧ P (t.getV x) ∧
      ∀ q, q ≠ x → t.getV q = s.getV q := by
  refine ⟨(s.setV x r).advance, rfl, rfl, ?_, fun q hq => setV_getV_ne s r hq⟩
  rwa [advance_getV, setV_getV_self]

/-- An operation on VX and VY that `f` computes bit by bit (R154 to R156). -/
theorem writeReg_bitwise (s : State) (x y : Reg) {op : Byte → Byte → Byte} {f : Bool → Bool → Bool}
    (bits : ∀ a b i, (op a b).getLsbD i = f (a.getLsbD i) (b.getLsbD i)) :
    ∃ t, writeReg x (op (s.getV x) (s.getV y)) s = .next t ∧ t = { s with v := t.v, pc := s.pc + 2 } ∧
      (∀ b, (t.getV x).getLsbD b = f ((s.getV x).getLsbD b) ((s.getV y).getLsbD b)) ∧
      ∀ q, q ≠ x → t.getV q = s.getV q :=
  writeReg_result s x (P := fun r => ∀ b, r.getLsbD b = f ((s.getV x).getLsbD b) ((s.getV y).getLsbD b)) (bits _ _)

/-- VX and then VF written: VX has whatever property the byte `r` has unless X = F, VF whatever property the flag has, for
X = F too, and PC goes on; the rest is unchanged (R24, R26). -/
theorem writeRegFlag_result (s : State) (x : Reg) {r : Byte} {c : Bool} {P Q : Byte → Prop} (result : P r)
    (flag : Q (flagByte c)) :
    ∃ t, writeRegFlag x r c s = .next t ∧ t = { s with v := t.v, pc := s.pc + 2 } ∧
      (x ≠ 0xF → P (t.getV x)) ∧ Q (t.getV 0xF) ∧ ∀ q, q ≠ x → q ≠ 0xF → t.getV q = s.getV q := by
  refine ⟨(s.setResultFlag x r c).advance, rfl, rfl, fun hx => ?_, ?_,
    fun q hx hF => setResultFlag_getV_other s r c hx hF⟩
  · rwa [advance_getV, setResultFlag_getV_dest s r c hx]
  · rwa [advance_getV, setResultFlag_getV_flag]

/-! ### Flags -/

/-- A flag whose condition is read as a proposition (R150). -/
theorem flagByte_eq_ite {c : Bool} {p : Prop} [Decidable p] (h : c = true ↔ p) :
    flagByte c = if p then 1 else 0 :=
  if_congr h rfl rfl

theorem flagByte_toNat (c : Bool) : (flagByte c).toNat = c.toNat := by
  cases c <;> rfl

theorem flagByte_carryOut (a b : Byte) :
    flagByte (carryOut a b) = if a.toNat + b.toNat > 255 then 1 else 0 :=
  flagByte_eq_ite decide_eq_true_iff

theorem flagByte_strictlyAbove (a b : Byte) :
    flagByte (strictlyAbove a b) = if a.toNat > b.toNat then 1 else 0 :=
  flagByte_eq_ite decide_eq_true_iff

/-- A flag that takes bit `i` of a byte is that bit's digit. -/
theorem flagByte_getLsbD_toNat (a : Byte) (i : Nat) : (flagByte (a.getLsbD i)).toNat = a.toNat / 2 ^ i % 2 :=
  (flagByte_toNat _).trans (Nat.toNat_testBit a.toNat i)

theorem flagByte_lowBit_toNat (a : Byte) : (flagByte (lowBit a)).toNat = a.toNat % 2 := by
  rw [lowBit, flagByte_getLsbD_toNat, pow_zero, Nat.div_one]

/-- Above bit 7 a byte has no bit, so its bit 7 is the whole quotient. -/
theorem flagByte_highBit_toNat (a : Byte) : (flagByte (highBit a)).toNat = a.toNat / 128 := by
  have ha := a.isLt
  rw [highBit, flagByte_getLsbD_toNat]
  omega

/-! ### Results -/

/-- The difference mod 256 of two bytes is that of their values as integers (R158, R160). -/
theorem byte_sub_toInt (a b : Byte) : ((a - b).toNat : Int) = ((a.toNat : Int) - b.toNat) % 256 := by
  have hb := b.isLt
  rw [BitVec.toNat_sub]
  omega

theorem byte_shiftRight_one_toNat (a : Byte) : (a >>> 1).toNat = a.toNat / 2 := by
  rw [BitVec.toNat_ushiftRight, Nat.shiftRight_one]

theorem byte_shiftLeft_one_toNat (a : Byte) : (a <<< 1).toNat = 2 * a.toNat % 256 := by
  rw [BitVec.toNat_shiftLeft, Nat.shiftLeft_eq, pow_one, Nat.mul_comm]

/-- Whatever is ANDed with NN has no bit outside NN (R162). -/
theorem byte_and_and_not (a nn : Byte) : a &&& nn &&& ~~~nn = 0 := by
  rw [BitVec.and_assoc, BitVec.and_not_self]
  exact BitVec.and_zero

/-! ### The obligations -/

/-- Settles O20: each of the three writes one register, 7XNN the sum mod 256. -/
theorem loadAndAddImmediateResult : Obligations.LoadAndAddImmediateResult := by
  intro s x y nn
  refine ⟨⟨_, rfl, rfl, fun r => setV_getV s x r nn⟩, ?_, ⟨_, rfl, rfl, fun r => setV_getV s x r (s.getV y)⟩⟩
  exact writeReg_result s x (P := fun b => b.toNat = _) (BitVec.toNat_add _ _)

/-- Settles O21: each of the three writes one register, and the operation is bit by bit. -/
theorem bitwiseResult : Obligations.BitwiseResult := by
  intro s x y
  exact ⟨writeReg_bitwise s x y (op := (· ||| ·)) (f := or) fun _ _ _ => BitVec.getLsbD_or,
    writeReg_bitwise s x y (op := (· &&& ·)) (f := and) fun _ _ _ => BitVec.getLsbD_and,
    writeReg_bitwise s x y (op := (· ^^^ ·)) (f := xor) fun _ _ _ => BitVec.getLsbD_xor⟩

/-- Settles O22: the result is the sum mod 256, the flag the carry. -/
theorem addWithCarryResult : Obligations.AddWithCarryResult := by
  intro s x y
  exact writeRegFlag_result s x (P := fun b => b.toNat = _) (Q := fun b => b = _)
    (BitVec.toNat_add _ _) (flagByte_carryOut _ _)

/-- Settles O23: the result is the difference mod 256, the flag the strict comparison; 8XY7 has the operands exchanged. -/
theorem subtractResult : Obligations.SubtractResult := by
  intro s x y
  exact ⟨writeRegFlag_result s x (P := fun b => (b.toNat : Int) = _) (Q := fun b => b = _)
      (byte_sub_toInt _ _) (flagByte_strictlyAbove _ _),
    writeRegFlag_result s x (P := fun b => (b.toNat : Int) = _) (Q := fun b => b = _)
      (byte_sub_toInt _ _) (flagByte_strictlyAbove _ _)⟩

/-- Settles O24: the result is half or double mod 256, the flag the bit shifted out; the arms of exec drop Y (R94). -/
theorem shiftResult : Obligations.ShiftResult := by
  intro s x y
  refine ⟨?right, ?left, fun y' => ⟨rfl, rfl⟩⟩
  case right =>
    exact writeRegFlag_result s x (P := fun b => b.toNat = _) (Q := fun b => b.toNat = _)
      (byte_shiftRight_one_toNat _) (flagByte_lowBit_toNat _)
  case left =>
    exact writeRegFlag_result s x (P := fun b => b.toNat = _) (Q := fun b => b.toNat = _)
      (byte_shiftLeft_one_toNat _) (flagByte_highBit_toNat _)

/-- Settles O25: CXNN writes one register of the state that has counted the draw. -/
theorem randomResult : Obligations.RandomResult := by
  intro s x nn
  obtain ⟨t, answer, frame, result, others⟩ := writeReg_result s.countDraw x (P := (· = s.drawRandom &&& nn)) rfl
  refine ⟨t, answer, frame, result, ?_, others⟩
  rw [result]
  exact byte_and_and_not s.drawRandom nn

end Sys2Proof.Machine
end

section
/-! PROOFS. The index register and memory through it (R181 to R186): the sums that I takes, the range check of a
transfer by its last address, and what each transfer moves. -/

namespace Sys2Proof.Machine

/-! ### What I takes -/

/-- Five times a byte fits in 16 bits, so FX29 never wraps (R183). -/
theorem fontAddr_toNat (b : Byte) : (5 * b.setWidth 16 : Word).toNat = 5 * b.toNat := by
  bv_omega

/-- The sum that FX1E leaves in I (R182). -/
theorem index_add_byte_toNat (i : Word) (b : Byte) :
    (i + b.setWidth 16).toNat = (i.toNat + b.toNat) % 0x10000 := by
  rw [BitVec.toNat_add, BitVec.toNat_setWidth, Nat.add_mod_mod]

theorem flagByte_indexAbove (i : Word) : flagByte (indexAbove i) = if i.toNat > 0x0FFF then 1 else 0 :=
  flagByte_eq_ite decide_eq_true_iff

theorem indexAfterTransfer_of_increments {s : State} (x : Reg) (h : s.cfg.lsIncrementsI = true) :
    (indexAfterTransfer s x).toNat = (s.i.toNat + x.val + 1) % 0x10000 := by
  rw [indexAfterTransfer, if_pos h, BitVec.toNat_add, BitVec.toNat_ofNat, Nat.add_mod_mod, Nat.add_assoc]

theorem indexAfterTransfer_of_keeps {s : State} (x : Reg) (h : s.cfg.lsIncrementsI = false) :
    indexAfterTransfer s x = s.i :=
  if_neg (Bool.eq_false_iff.mp h)

/-! ### A transfer by its last address -/

/-- A transfer of at least one byte is in range exactly when its last address is (R56, R180). -/
theorem dataInRange_succ_iff (s : State) (k : Nat) : dataInRange s (k + 1) = true ↔ s.i.toNat + k ≤ 0xFFF := by
  rw [dataInRange_iff]
  omega

theorem withDataRange_inRange {s : State} {k : Nat} (h : s.i.toNat + k ≤ 0xFFF) (e : State) :
    withDataRange (k + 1) s e = .next e :=
  if_pos ((dataInRange_succ_iff s k).mpr h)

theorem withDataRange_outOfRange {s : State} {k : Nat} (h : 0xFFF < s.i.toNat + k) (e : State) :
    withDataRange (k + 1) s e = .next { s with fault := some (.dataOutOfRange s.pc (max s.i.toNat 0x1000)) } :=
  if_neg (mt (dataInRange_succ_iff s k).mp (not_le.mpr h))

/-! ### What a transfer moves -/

@[simp] theorem bcdDigits_length (b : Byte) : (bcdDigits b).length = 3 := rfl

/-- The three digits that FX33 stores, as numbers: each fits in a byte (R184). -/
theorem bcdDigits_toNat (b : Byte) :
    (bcdDigits b)[0].toNat = b.toNat / 100 ∧ (bcdDigits b)[1].toNat = b.toNat / 10 % 10 ∧
      (bcdDigits b)[2].toNat = b.toNat % 10 := by
  have fits {d : Nat} (h : d < 256) : (BitVec.ofNat 8 d).toNat = d := Nat.mod_eq_of_lt h
  have hb := b.isLt
  exact ⟨fits (by omega), fits (by omega), fits (by omega)⟩

/-- Register `k` takes byte `k` of those that FX65 reads (R186). -/
theorem loadRegsFrom_readBytes_getV (s : State) {x k : Reg} (hk : k ≤ x) :
    (loadRegsFrom s allKeys (s.readBytes (dataAddr s 0) (x.val + 1))).getV k = s.readByte (dataAddr s k.val) := by
  have inside : k.val < (s.readBytes (dataAddr s 0) (x.val + 1)).length :=
    (Nat.lt_succ_of_le hk).trans_eq (memReadList_length ..).symm
  rw [loadRegsFrom_getV, List.getElem?_eq_getElem inside, Option.getD_some]
  exact memReadList_getElem _ _ _ _ _ inside

/-! ### The obligations -/

/-- Settles O26: the address operand and five times a byte both fit in I. -/
theorem setIndexResult : Obligations.SetIndexResult := by
  intro s x nnn
  exact ⟨rfl, _, rfl, rfl, fontAddr_toNat (s.getV x)⟩

/-- Settles O27: VF is written after I and from the new I (D8). -/
theorem addToIndexResult : Obligations.AddToIndexResult := by
  intro s x
  refine ⟨_, rfl, rfl, index_add_byte_toNat s.i (s.getV x), ?flag, fun r hr => setV_getV_ne _ _ hr⟩
  case flag => exact (setV_getV_self _ vF _).trans (flagByte_indexAbove _)

/-- Settles O28, by the range check; a byte that FX33 does not store to is one that memory's frame keeps. -/
theorem storeBcdResult : Obligations.StoreBcdResult := by
  intro s x hm
  refine ⟨fun hr => ?inRange, fun hr => withDataRange_outOfRange hr _⟩
  case inRange =>
    have answer := withDataRange_inRange hr (s.writeBytes (dataAddr s 0) (bcdDigits (s.getV x))).advance
    have stored := writeBytes_readByte_stored hm (bs := bcdDigits (s.getV x)) ((dataInRange_succ_iff s 2).mpr hr)
    obtain ⟨hundreds, tens, units⟩ := bcdDigits_toNat (s.getV x)
    refine ⟨_, answer, rfl, ?_, ?_, ?_, fun a outside => ?_⟩
    · exact (congrArg _ (stored 0 (by simp))).trans hundreds
    · exact (congrArg _ (stored 1 (by simp))).trans tens
    · exact (congrArg _ (stored 2 (by simp))).trans units
    · exact memoryFrame (.bcd x) s _ hm answer a (not_and_or.mpr (outside.imp not_le.mpr not_le.mpr))

/-- Settles O29, by the range check; a byte that FX55 does not store to is one that memory's frame keeps. -/
theorem storeRegistersResult : Obligations.StoreRegistersResult := by
  intro s x hm
  refine ⟨fun hr => ?inRange, fun hr => withDataRange_outOfRange hr _⟩
  case inRange =>
    have check := (dataInRange_succ_iff s x.val).mpr hr
    have answer := exec_storeRegs_inRange check
    refine ⟨_, answer, rfl, fun k hk => writeBytes_regValues_readByte hm check hk, fun a outside => ?_,
      indexAfterTransfer_of_increments x, indexAfterTransfer_of_keeps x⟩
    exact memoryFrame (.storeRegs x) s _ hm answer a (not_and_or.mpr (outside.imp not_le.mpr not_le.mpr))

/-- Settles O30, by the range check; a register above VX is one that the register frame keeps. -/
theorem loadRegistersResult : Obligations.LoadRegistersResult := by
  intro s x
  refine ⟨fun hr => ?inRange, fun hr => withDataRange_outOfRange hr _⟩
  case inRange =>
    have answer : exec (.loadRegs x) s = _ := withDataRange_inRange hr _
    refine ⟨_, answer, ?frame, fun k hk => loadRegsFrom_readBytes_getV s hk,
      fun k hk => registerFrame _ s _ answer k (not_le.mpr hk),
      indexAfterTransfer_of_increments x, indexAfterTransfer_of_keeps x⟩
    case frame => rw [loadRegsFrom_frame]; rfl

/-- Settles O31: each byte that the load reads is the one that the store left at that address. -/
theorem loadRegistersUndoesStoreRegisters : Obligations.LoadRegistersUndoesStoreRegisters := by
  intro s t u x hm hr hstore hmem hcfg hi
  obtain ⟨t', hstore', -, stored, -⟩ := (storeRegistersResult s x hm).1 hr
  obtain rfl : t = t' := Host.Outcome.next.inj (hstore.symm.trans hstore')
  obtain ⟨w, hload, -, loaded, -⟩ := (loadRegistersResult u x).1 (hi ▸ hr)
  refine ⟨w, hload, fun k hk => ?_⟩
  calc w.getV k = u.readByte (dataAddr u k.val) := loaded k hk
    _ = t.readByte (dataAddr s k.val) := by rw [State.readByte, State.readByte, dataAddr, dataAddr, hmem, hcfg, hi]
    _ = s.getV k := stored k hk

end Sys2Proof.Machine
end

section
/-! PROOFS. Sprite draw (R200 to R204): the pixels a draw applies a 1-bit to, the state it leaves, and what that
state says of every pixel. -/

namespace Sys2Proof.Machine

open Sys2Proof.Claims

/-! ### The pixels a draw applies a 1-bit to -/

/-- Row `k` of a sprite read from memory is the byte at address `a + k`, and lands in row `j + k` of the drawing. -/
theorem spritePixels_memReadList (font : Font) (mem : Memory) (cx cy : Byte) (a j n : Nat) :
    spritePixels cx cy j (memReadList font mem a n) =
      (List.range n).flatMap fun k => (rowBits (memRead font mem (a + k))).map (spritePixel cx cy (j + k)) := by
  induction n generalizing a j with
  | zero => rfl
  | succ n ih =>
    have shift (b k : Nat) : b + 1 + k = b + (k + 1) := Nat.succ_add_eq_add_succ b k
    simp only [memReadList, spritePixels, ih, shift, List.range_succ_eq_map, List.flatMap_cons, List.flatMap_map,
      Nat.add_zero, Nat.succ_eq_add_one]

/-- The places DXYN toggles are those of R200 and R202. -/
theorem spritePixels_readBytes (s : State) (x y : Reg) (n : Nat) :
    spritePixels (s.getV x) (s.getV y) 0 (s.readBytes (dataAddr s 0) n) = spriteCells s x y n := by
  rw [State.readBytes, spritePixels_memReadList, spriteCells]
  simp only [Nat.zero_add]
  rfl

theorem spriteCells_nodup (s : State) (x y : Reg) {n : Nat} (hn : n ≤ 15) : (spriteCells s x y n).Nodup := by
  rw [← spritePixels_readBytes]
  have rows : (s.readBytes (dataAddr s 0) n).length = n := memReadList_length ..
  exact spritePixels_nodup _ _ (by omega) 0

/-- The places depend on the coordinates and the sprite's bytes alone. -/
theorem spriteCells_congr {s m : State} {x y x' y' : Reg} {n : Nat} (hx : m.getV x' = s.getV x)
    (hy : m.getV y' = s.getV y) (rows : ∀ j, j < n → m.readByte (dataAddr m j) = s.readByte (dataAddr s j)) :
    spriteCells m x' y' n = spriteCells s x y n := by
  rw [spriteCells, spriteCells, hx, hy]
  refine List.flatMap_congr fun j hj => ?_
  rw [rows j (List.mem_range.mp hj)]

/-! ### What DXYN answers -/

/-- The state that a draw in range leaves (R203): the cells of its 1-bits toggled and told, then VF, then PC. -/
def afterDraw (s : State) (x y : Reg) (n : Nat) : State :=
  let d := togglePixels s.screen (spriteCells s x y n)
  (((s.setScreen d.screen).emit d.events).setV vF (flagByte d.collision)).advance

theorem exec_drw_inRange {s : State} {n : Nat} (x y : Reg) (hi : s.i.toNat ≤ 0xFFF) (hn : s.i.toNat + n ≤ 0x1000) :
    exec (.drw x y n) s = .next (afterDraw s x y n) := by
  rw [afterDraw, ← spritePixels_readBytes]
  exact if_pos ((dataInRange_iff s n).mpr ⟨hi, hn⟩)

theorem exec_drw_outOfRange {s : State} {n : Nat} (x y : Reg) (h : 0xFFF < s.i.toNat ∨ 0x1000 < s.i.toNat + n) :
    exec (.drw x y n) s = .next { s with fault := some (.dataOutOfRange s.pc (max s.i.toNat 0x1000)) } := by
  refine if_neg fun hr => ?_
  obtain ⟨hi, hn⟩ := (dataInRange_iff s n).mp hr
  omega

/-- Every pixel after a draw: XORed with whether a 1-bit lands on it (R200). -/
theorem afterDraw_getPixel (s : State) (x y : Reg) {n : Nat} (hn : n ≤ 15) (p : Pixel) :
    getPixel (afterDraw s x y n).screen p = (getPixel s.screen p ^^ decide (p ∈ spriteCells s x y n)) := by
  have toggled : getPixel (afterDraw s x y n).screen p = _ :=
    togglePixels_screen (spriteCells_nodup s x y hn) s.screen p
  by_cases hp : p ∈ spriteCells s x y n <;> simp [toggled, hp]

/-- VF after a draw: whether a 1-bit landed on a pixel that was set (R201). -/
theorem afterDraw_getV_flag (s : State) (x y : Reg) {n : Nat} (hn : n ≤ 15) :
    (afterDraw s x y n).getV 0xF = if ∃ p ∈ spriteCells s x y n, getPixel s.screen p = true then 1 else 0 :=
  (setV_getV_self _ vF _).trans (flagByte_eq_ite (togglePixels_collision (spriteCells_nodup s x y hn) s.screen))

theorem afterDraw_events (s : State) (x y : Reg) {n : Nat} (hn : n ≤ 15) :
    (afterDraw s x y n).events =
      s.events ++ (spriteCells s x y n).map fun p => .pixelChanged p.1 p.2 (!getPixel s.screen p) :=
  congrArg (s.events ++ ·) (togglePixels_events (spriteCells_nodup s x y hn) s.screen)

/-- A second toggle of the same places restores the screen (R204). -/
theorem afterDraw_screen_of_again {s m : State} {x y x' y' : Reg} {n : Nat} (hn : n ≤ 15)
    (screen : m.screen = (afterDraw s x y n).screen) (cells : spriteCells m x' y' n = spriteCells s x y n) :
    (afterDraw m x' y' n).screen = s.screen := by
  refine screen_ext fun p => ?_
  rw [afterDraw_getPixel m x' y' hn, screen, afterDraw_getPixel s x y hn, cells, Bool.xor_assoc, Bool.xor_self,
    Bool.xor_false]

/-- A pixel that a draw names is set after it exactly when the draw turned it on. -/
theorem mem_spriteCells_and_set_iff (s : State) (x y : Reg) {n : Nat} (hn : n ≤ 15) (p : Pixel) :
    p ∈ spriteCells s x y n ∧ getPixel (afterDraw s x y n).screen p = true ↔
      getPixel s.screen p = false ∧ getPixel (afterDraw s x y n).screen p = true := by
  rw [afterDraw_getPixel s x y hn]
  cases getPixel s.screen p <;> simp

/-- The notifications of a draw in range, as pairs of a pixel and its new value (R200). -/
def toldByDraw (s : State) (x y : Reg) (n : Nat) : List (Pixel × Bool) :=
  (spriteCells s x y n).map fun p => (p, !getPixel s.screen p)

theorem toldByDraw_pixels (s : State) (x y : Reg) (n : Nat) :
    (toldByDraw s x y n).map Prod.fst = spriteCells s x y n :=
  List.map_map.trans (List.map_id _)

theorem afterDraw_events_told (s : State) (x y : Reg) {n : Nat} (hn : n ≤ 15) :
    (afterDraw s x y n).events =
      s.events ++ (toldByDraw s x y n).map fun e => .pixelChanged e.1.1 e.1.2 e.2 := by
  rw [afterDraw_events s x y hn, toldByDraw, List.map_map]
  rfl

/-! ### The obligations -/

/-- Settles O33, by the range check. -/
theorem drawResult : Obligations.DrawResult := by
  intro s x y n hn
  refine ⟨fun hi hr => ?inRange, exec_drw_outOfRange x y⟩
  case inRange =>
    exact ⟨afterDraw s x y n, exec_drw_inRange x y hi hr, rfl, afterDraw_getPixel s x y hn,
      afterDraw_getV_flag s x y hn, fun r hF => setV_getV_ne _ _ hF, afterDraw_events s x y hn⟩

/-- Settles O34: the notifications name the cells of the 1-bits, which are distinct; a draw out of range names none. -/
theorem drawTouchesNoPixelTwice : Obligations.DrawTouchesNoPixelTwice := by
  intro s x y n hn
  by_cases hr : s.i.toNat ≤ 0xFFF ∧ s.i.toNat + n ≤ 0x1000
  case pos =>
    refine ⟨afterDraw s x y n, toldByDraw s x y n, exec_drw_inRange x y hr.1 hr.2, afterDraw_events_told s x y hn, ?_⟩
    rw [toldByDraw_pixels]
    refine ⟨spriteCells_nodup s x y hn, fun e he => ?values, fun p hp => ?others⟩
    case values =>
      obtain ⟨p, hp, rfl⟩ := List.mem_map.mp he
      simp [afterDraw_getPixel s x y hn, hp]
    case others => simp [afterDraw_getPixel s x y hn, hp]
  case neg =>
    exact ⟨_, [], exec_drw_outOfRange x y (by omega), (List.append_nil _).symm, List.nodup_nil,
      fun _ he => absurd he List.not_mem_nil, fun _ _ => rfl⟩

/-- Settles O35: both draws toggle the same cells, and the second collides on those that the first left set. -/
theorem drawTwiceRestoresTheScreen : Obligations.DrawTwiceRestoresTheScreen := by
  intro s t m u x y x' y' n hn hsi hsr hmi hmr first hscreen rows hx hy second
  obtain rfl := Host.Outcome.next.inj ((exec_drw_inRange x y hsi hsr).symm.trans first)
  obtain rfl := Host.Outcome.next.inj ((exec_drw_inRange x' y' hmi hmr).symm.trans second)
  have cells : spriteCells m x' y' n = spriteCells s x y n := spriteCells_congr hx hy rows
  refine ⟨afterDraw_screen_of_again hn hscreen cells, ?flag⟩
  case flag =>
    rw [afterDraw_getV_flag m x' y' hn, hscreen, cells]
    simp [mem_spriteCells_and_set_iff s x y hn]

end Sys2Proof.Machine
end

section
/-! PROOFS. Timer access and key wait (R220 to R223): what each instruction answers, and how a waiting state goes on
(R295). -/

namespace Sys2Proof.Machine

/-! ### FX0A, by the case of the lowest key down -/

theorem exec_waitKey_pressed {s : State} {k : Reg} (x : Reg) (h : firstPressed s = some k) :
    exec (.waitKey x) s = writeReg x (BitVec.ofNat 8 k.val) s := by
  simp only [exec, execWaitKey, writeReg, h]

theorem exec_waitKey_unpressed {s : State} (x : Reg) (h : firstPressed s = none) :
    exec (.waitKey x) s = .next s := by
  simp only [exec, execWaitKey, h]

/-- A key's index fits in a register (R223). -/
theorem keyIndex_toNat (k : Reg) : (BitVec.ofNat 8 k.val).toNat = k.val :=
  Nat.mod_eq_of_lt (k.isLt.trans (by decide))

/-- Settles O36: FX07 writes one register; FX15 and FX18 write no element but the timer and PC. -/
theorem timerAccessResult : Obligations.TimerAccessResult := by
  intro s x
  exact ⟨⟨(s.setV x s.dt).advance, rfl, rfl, fun r => setV_getV s x r s.dt⟩, rfl, rfl⟩

/-- Settles O37: the lowest key down is what `firstPressed` finds, and FX0A writes its index to one register. -/
theorem waitForKeyResult : Obligations.WaitForKeyResult := by
  intro s x
  constructor
  · intro k down lowest
    rw [exec_waitKey_pressed x (firstPressed_eq_some.mpr ⟨down, lowest⟩)]
    exact writeReg_result s x (P := fun b => b.toNat = k.val) (keyIndex_toNat k)
  · exact fun up => exec_waitKey_unpressed x (firstPressed_eq_none.mpr up)

/-! ### A waiting state -/

/-- The keypad after a key event (R260, R261). -/
theorem hostKey_keyDown (s : State) (idx : Nat) (down : Bool) (k : Reg) :
    (s.hostKey idx down).keyDown k = if k.val = idx then down else s.keyDown k := by
  unfold State.hostKey
  split
  case isTrue => simp [State.keyDown, State.setKeys, Vector.getElem_set, eq_comm]
  case isFalse above =>
    have other : k.val ≠ idx := by omega
    rw [if_neg other]

/-- With no key down, a waiting state steps to itself (R223, R295). -/
theorem step_waiting {s : State} (h : Waiting s) (hsched : s.schedule = []) : step s = .next s := by
  obtain ⟨running, fetchable, up, x, hw⟩ := h
  rw [step_next hsched, next_legal running fetchable hw]
  exact (waitForKeyResult s x).2 up

/-- The Next after the first KeyDown loads the index of that key: it is the only one down (R223). -/
theorem next_hostKey_of_waitKey {s : State} {x : Reg} (running : s.fault = none) (fetchable : s.pc.toNat ≤ 0x0FFE)
    (up : ∀ k, s.keyDown k = false) (hw : decodeWord (fetchWord s) = .ok (.waitKey x)) (key : Reg) :
    ∃ t, next (s.hostKey key.val true) = .next t ∧ (t.getV x).toNat = key.val ∧ t.pc = s.pc + 2 := by
  have down : (s.hostKey key.val true).keyDown key = true := by rw [hostKey_keyDown, if_pos rfl]
  have lowest : ∀ j, j < key → (s.hostKey key.val true).keyDown j = false := fun j hj => by
    rw [hostKey_keyDown, if_neg (Fin.val_ne_of_ne hj.ne), up j]
  obtain ⟨t, answer, frame, loaded, -⟩ := (waitForKeyResult _ x).1 key down lowest
  refine ⟨t, ?_, loaded, ?_⟩
  · rw [hostKey_frame] at answer ⊢
    exact (next_legal (s := s.setKeys (s.hostKey key.val true).keys) running fetchable hw).trans answer
  · rw [frame, hostKey_frame, setKeys_pc]

/-- Settles O56: a waiting state is a fixed point of the step, and after a KeyDown FX0A loads that key. -/
theorem waitingStateStaysUntilAKey : Obligations.WaitingStateStaysUntilAKey := by
  intro s n hwait hsched
  refine ⟨run_fixed (step_waiting hwait hsched) n, fun key => ?_⟩
  obtain ⟨running, fetchable, up, x, hw⟩ := hwait
  obtain ⟨t, answer, loaded, hpc⟩ := next_hostKey_of_waitKey running fetchable up hw key
  have first : step (s.setSchedule [.keyDown key.val]) = .next (s.hostKey key.val true) := by
    have used : (s.setSchedule [.keyDown key.val]).setSchedule [] = s := by rw [← hsched]; rfl
    rw [step_listed (setSchedule_schedule s _), used, hostStep]
  have unlisted : (s.hostKey key.val true).schedule = [] := by rw [hostKey_frame, setKeys_schedule, hsched]
  have second : step (s.hostKey key.val true) = .next t := (step_next unlisted).trans answer
  have run : Host.Core.run Sys2Proof.core 2 (s.setSchedule [.keyDown key.val]) = .next t := by
    rw [run_succ 1 first, run_succ 0 second, run_zero]
  exact ⟨t, x, run, hw, loaded, hpc⟩

end Sys2Proof.Machine
end

section
/-! PROOFS. Fatal conditions and the host operations beside Next (R241 to R262): when an instruction faults, what a fault
changes, and what Ticker and the key events leave, one at a time and in a run. -/

namespace Sys2Proof.Machine

open Sys2Proof.Claims

/-! ### The first step of a run -/

/-- A run that starts with a listed operation goes on from what that operation answers. -/
theorem run_succ_listed {s t : State} {op : HostOp} {ops : List HostOp} (k : Nat) (hsched : s.schedule = op :: ops)
    (answer : hostStep op (s.setSchedule ops) = .next t) :
    Host.Core.run Sys2Proof.core (k + 1) s = Host.Core.run Sys2Proof.core k t :=
  run_succ k ((step_listed hsched).trans answer)

/-- A run whose first step stops has stopped. -/
theorem run_succ_of_fault {s : State} {r : Fault} (k : Nat) (h : step s = .fault r) :
    Host.Core.run Sys2Proof.core (k + 1) s = .fault r := by
  have first : Sys2Proof.core.step s = .fault r := h
  simp only [Host.Core.run, first]

/-! ### A Next that faults -/

/-- A Next that answers a next state raised one fatal condition at its own PC, with no other effect, or left `fault` as it
was (R242, R243). -/
theorem next_raises_or_keeps {s t : State} (h : next s = .next t) :
    (∃ f, t = s.setFault (some f) ∧ fatalPc f = s.pc) ∨ t.fault = s.fault := by
  obtain ⟨-, ⟨-, rfl⟩ | ⟨-, -, rfl⟩ | ⟨-, i, -, hi⟩⟩ := next_cases h
  · exact .inl ⟨_, rfl, rfl⟩
  · exact .inl ⟨_, rfl, rfl⟩
  · exact exec_raises_or_keeps hi

/-- Settles O44: a Next that leaves `fault` as it was records none, and one that raises does nothing else. -/
theorem faultIsAllOrNothing : Obligations.FaultIsAllOrNothing := by
  intro s t f hsched running hstep recorded
  rw [step_next hsched] at hstep
  obtain ⟨g, rfl, hpc⟩ | keeps := next_raises_or_keeps hstep
  · cases recorded
    exact ⟨rfl, hpc, rfl⟩
  · rw [recorded, running] at keeps
    cases keeps

/-! ### When an instruction faults -/

/-- The outcome is a next state, with a fatal condition recorded in it exactly when the check `p` fails (R245). -/
def FaultsUnless (r : Result) (p : Prop) : Prop := ∃ t, r = .next t ∧ (t.fault = none ↔ p)

theorem faultsUnless_of_passes {r : Result} {p : Prop} {t : State} (answer : r = .next t) (running : t.fault = none)
    (passes : p) : FaultsUnless r p := ⟨t, answer, iff_of_true running passes⟩

theorem faultsUnless_of_raises {r : Result} {p : Prop} {s : State} {f : Fatal}
    (answer : r = .next (s.setFault (some f))) (fails : ¬ p) : FaultsUnless r p :=
  ⟨_, answer, iff_of_false (Option.some_ne_none f) fails⟩

section
variable {s : State} (running : s.fault = none)
include running

theorem exec_ret_faultsUnless : FaultsUnless (exec .ret s) (s.stack ≠ []) := by
  cases hstack : s.stack with
  | nil => exact faultsUnless_of_raises (exec_ret_empty hstack) (not_not.mpr rfl)
  | cons top below => exact faultsUnless_of_passes (exec_ret_pop hstack) running (List.cons_ne_nil top below)

theorem exec_call_faultsUnless (nnn : Addr12) :
    FaultsUnless (exec (.call nnn) s)
      (∀ limit positive, s.cfg.stackDepth = .bounded limit positive → s.stack.length ≠ limit) := by
  by_cases hroom : ∀ limit positive, s.cfg.stackDepth = .bounded limit positive → s.stack.length ≠ limit
  case pos => exact faultsUnless_of_passes (exec_call_notFull (stackFull_eq_false hroom)) running hroom
  case neg =>
    have full : stackFull s.cfg.stackDepth s.stack = true := (stackFull_iff _ _).mpr (by simpa using hroom)
    exact faultsUnless_of_raises (exec_call_full full) hroom

theorem skipOnKey_faultsUnless (x : Reg) (wanted : Bool) :
    FaultsUnless (skipOnKey x wanted s) ((s.getV x).toNat ≤ 0x0F) := by
  by_cases named : (s.getV x).toNat ≤ 0x0F
  case pos =>
    have answer := skipOnKey_named (k := ⟨(s.getV x).toNat, Nat.lt_succ_of_le named⟩) wanted rfl
    exact faultsUnless_of_passes answer running named
  case neg => exact faultsUnless_of_raises (skipOnKey_unnamed wanted (not_le.mp named)) named

theorem exec_waitKey_never_faults (x : Reg) : FaultsUnless (exec (.waitKey x) s) True := by
  cases hkey : firstPressed s with
  | some k => exact faultsUnless_of_passes (exec_waitKey_pressed x hkey) running trivial
  | none => exact faultsUnless_of_passes (exec_waitKey_unpressed x hkey) running trivial

end

theorem withDataRange_faultsUnless {n : Nat} {s e : State} {p : Prop} (running : e.fault = none)
    (check : dataInRange s n = true ↔ p) : FaultsUnless (withDataRange n s e) p := by
  by_cases inRange : dataInRange s n = true
  case pos => exact faultsUnless_of_passes (if_pos inRange) running (check.mp inRange)
  case neg => exact faultsUnless_of_raises (if_neg inRange) (mt check.mpr inRange)

/-- Settles O45, by cases on the instruction: those with a check of their own fault by it, and no other writes `fault`. -/
theorem onlyTheOwnCheckFaults : Obligations.OnlyTheOwnCheckFaults := by
  intro i s running
  cases i with
  | ret => exact exec_ret_faultsUnless running
  | call nnn => exact exec_call_faultsUnless running nnn
  | skp x | sknp x => exact skipOnKey_faultsUnless running x _
  | drw x y n => exact withDataRange_faultsUnless running (dataInRange_iff s n)
  | bcd x => exact withDataRange_faultsUnless running (dataInRange_succ_iff s 2)
  | storeRegs x => exact withDataRange_faultsUnless running (dataInRange_succ_iff s x.val)
  | loadRegs x =>
    exact withDataRange_faultsUnless ((loadRegsFrom_fault s _ _).trans running) (dataInRange_succ_iff s x.val)
  | waitKey x => exact exec_waitKey_never_faults running x
  | _ => exact faultsUnless_of_passes rfl running trivial

/-! ### A faulted CORE -/

/-- Settles O46: Next stops and with it every run of Nexts, and each other operation has its frame. -/
theorem faultedUntilReset : Obligations.FaultedUntilReset := by
  intro s f faulted
  have stops : next s = .fault (.halted f) := next_faulted faulted
  refine ⟨stops, fun k hsched => ?_, ⟨_, rfl, rfl⟩, fun idx => ⟨_, rfl, hostKey_frame s idx true⟩,
    fun idx => ⟨_, rfl, hostKey_frame s idx false⟩, fun bytes => ⟨_, rfl, hostLoad_frame s bytes⟩, ⟨_, rfl, rfl⟩⟩
  exact run_succ_of_fault k ((step_next hsched).trans stops)

/-! ### Ticker -/

theorem countDown_toNat (b : Byte) : (countDown b).toNat = b.toNat - 1 := by
  unfold countDown
  split
  case isTrue zero => rw [zero]; rfl
  case isFalse nonzero => bv_omega

/-- Settles O38: both timers count down, and the log takes what Ticker emits. -/
theorem tickerResult : Obligations.TickerResult := by
  intro s
  exact ⟨s.hostTicker, rfl, rfl, countDown_toNat s.dt, countDown_toNat s.st, rfl⟩

/-- The tone of `k + 1` Tickers sounds at the first of them, or among the `k` after it, and never at both (R250). -/
theorem playTone_first_or_later (st : Byte) (k : Nat) :
    (if st = 1 then [Event.playTone] else []) ++ (if 1 ≤ st.toNat - 1 ∧ st.toNat - 1 ≤ k then [.playTone] else []) =
      if 1 ≤ st.toNat ∧ st.toNat ≤ k + 1 then [.playTone] else [] := by
  by_cases first : st = 1
  case pos => simp [first]
  case neg =>
    have notOne : st.toNat ≠ 1 := fun h => first (BitVec.eq_of_toNat_eq h)
    have later : 1 ≤ st.toNat - 1 ∧ st.toNat - 1 ≤ k ↔ 1 ≤ st.toNat ∧ st.toNat ≤ k + 1 := by omega
    rw [if_neg first, List.nil_append, if_congr later rfl rfl]

/-- Settles O39, by induction on the number of Tickers: the first one's result, then the run from there. -/
theorem tickersInARow : Obligations.TickersInARow := by
  intro s k hsched
  induction k generalizing s with
  | zero =>
    have noTone : ¬ (1 ≤ s.st.toNat ∧ s.st.toNat ≤ 0) := by omega
    refine ⟨s, rfl, ?_, rfl, rfl, by rw [if_neg noTone, List.append_nil]⟩
    exact State.ext rfl rfl rfl rfl rfl rfl rfl rfl rfl rfl rfl rfl rfl hsched
  | succ k ih =>
    obtain ⟨u, answer, uframe, udt, ust, uevents⟩ := tickerResult (s.setSchedule (List.replicate k .ticker))
    have usched : u.schedule = List.replicate k .ticker := by rw [uframe]; rfl
    obtain ⟨t, run, tframe, tdt, tst, tevents⟩ := ih u usched
    refine ⟨t, (run_succ_listed k hsched answer).trans run, ?frame, ?dt, ?st, ?events⟩
    case frame => rw [tframe, uframe]; rfl
    case dt => rw [tdt, udt, setSchedule_dt]; omega
    case st => rw [tst, ust, setSchedule_st]; omega
    case events =>
      rw [tevents, uevents, ust, List.append_assoc, setSchedule_st, playTone_first_or_later, setSchedule_events]

/-! ### Key events -/

/-- Settles O40: a key event writes the key of its index, and no key has an index above 15. -/
theorem keyEventResult : Obligations.KeyEventResult := by
  intro s idx
  exact ⟨⟨_, rfl, hostKey_frame s idx true, hostKey_keyDown s idx true⟩,
    ⟨_, rfl, hostKey_frame s idx false, hostKey_keyDown s idx false⟩⟩

/-- A key event changes the keypad alone, each key as `keyAfter` says (R260, R261). -/
theorem hostStep_keyEvent {op : HostOp} (h : isKeyEvent op = true) (s : State) :
    ∃ t, hostStep op s = .next t ∧ t = s.setKeys t.keys ∧ ∀ k, t.keyDown k = keyAfter k (s.keyDown k) op := by
  cases op with
  | keyDown idx =>
    obtain ⟨⟨t, answer, frame, keys⟩, -⟩ := keyEventResult s idx
    exact ⟨t, answer, frame, fun k => (keys k).trans (if_congr eq_comm rfl rfl)⟩
  | keyUp idx =>
    obtain ⟨-, t, answer, frame, keys⟩ := keyEventResult s idx
    exact ⟨t, answer, frame, fun k => (keys k).trans (if_congr eq_comm rfl rfl)⟩
  | next | reset | load bytes | ticker => cases h

/-- Settles O41, by induction on the run of events: the first event's effect on each key, then the run from there. -/
theorem keypadIsLevelState : Obligations.KeypadIsLevelState := by
  intro ops
  induction ops with
  | nil =>
    intro s _ hsched
    exact ⟨s, rfl, State.ext rfl rfl rfl rfl rfl rfl rfl rfl rfl rfl rfl rfl rfl hsched, fun k => rfl⟩
  | cons op ops ih =>
    intro s events hsched
    obtain ⟨first, later⟩ := List.forall_mem_cons.mp events
    obtain ⟨u, answer, uframe, ukeys⟩ := hostStep_keyEvent first (s.setSchedule ops)
    have usched : u.schedule = ops := by rw [uframe]; rfl
    obtain ⟨t, run, tframe, tkeys⟩ := ih u later usched
    refine ⟨t, (run_succ_listed ops.length hsched answer).trans run, ?frame, fun k => ?keys⟩
    case frame => rw [tframe, uframe]; rfl
    case keys => rw [tkeys, ukeys, setSchedule_keyDown, List.foldl_cons]

end Sys2Proof.Machine
end

section
/-! PROOFS. Reset, Load and launch (R280 to R288), and the stopped state that a run of Nexts never leaves (R295). -/

namespace Sys2Proof.Machine

/-! ### Reset -/

/-- Reset leaves the machine as it starts with the same parameters, but for the log and the model's own fields (R280). -/
theorem hostReset_eq_resetWith (s : State) :
    s.hostReset =
      { State.resetWith s.cfg with events := s.events ++ [.screenReset], draws := s.draws, schedule := s.schedule } :=
  rfl

/-- Settles O2: every element of R20 but the log is that of the reset state for the same parameters. -/
theorem resetOperationFromEveryState : Obligations.ResetOperationFromEveryState := by
  intro s
  obtain ⟨_, rfl, -, hv, hi, hpc, hdt, hst, hstack, hfont, hzero, hscreen, hkeys, hfault, -⟩ :=
    resetStateHoldsTheStatedValues.2 s.cfg
  refine ⟨s.hostReset, rfl, ?_⟩
  rw [hostReset_eq_resetWith]
  exact ⟨hv, hi, hpc, hdt, hst, hstack, hfont, hzero, hscreen, hkeys, hfault, rfl, rfl, rfl, rfl⟩

/-! ### Load, by whether the image fits -/

theorem hostLoad_fits {s : State} {bytes : List Byte} (h : 0x200 + bytes.length ≤ 4096) :
    s.hostLoad bytes = (s.writeBytes romBase bytes, .ok) := if_neg (not_lt.mpr h)

theorem hostLoad_tooLong {s : State} {bytes : List Byte} (h : 4096 < 0x200 + bytes.length) :
    s.hostLoad bytes = (s, .loadOutOfBounds) := if_pos h

/-- What Load of an image that fits changes: its bytes land from 0x200 on, and every other address reads as before. -/
theorem loaded_readByte {s : State} {bytes : List Byte} (hm : s.mem.wf s.cfg.font = true)
    (fits : 0x200 + bytes.length ≤ 4096) (a : Nat) :
    (s.writeBytes romBase bytes).readByte a =
      if 0x200 ≤ a then (bytes[a - 0x200]?).getD (s.readByte a) else s.readByte a :=
  memRead_writeList hm fits a

/-- Settles O42: an image that fits is one transfer to memory from 0x200 on. -/
theorem loadResult : Obligations.LoadResult := by
  intro s bytes hm
  refine ⟨fun fits => ⟨s.writeBytes romBase bytes, hostLoad_fits fits, rfl, ?landed, ?kept⟩, hostLoad_tooLong, rfl⟩
  case landed =>
    intro k hk
    simp [loaded_readByte hm fits, hk]
  case kept =>
    rintro a (below | above)
    · rw [loaded_readByte hm fits, if_neg (not_le.mpr below)]
    · have past : bytes.length ≤ a - 0x200 := Nat.le_sub_of_add_le' above
      rw [loaded_readByte hm fits, List.getElem?_eq_none past, Option.getD_none, ite_self]

/-! ### Launch -/

/-- Settles O43: Reset meets the invariant and Load keeps it, and Load changes memory alone. -/
theorem launchIsReady : Obligations.LaunchIsReady := by
  intro s rom hrom
  have reset : Inv s.hostReset := inv_hostReset s
  have fits : 0x200 + rom.length ≤ 4096 := by omega
  obtain ⟨t, loaded, frame, landed, -⟩ := (loadResult s.hostReset rom reset.memory).1 fits
  have answer : hostStep (.load rom) s.hostReset = .next t := by rw [hostStep, loaded]
  have running : t.fault = none := by rw [frame]; rfl
  have entry : t.pc = 0x200 := by rw [frame]; rfl
  exact ⟨t, loaded, hostStep_keeps_inv reset answer, running, entry, landed⟩

/-! ### A stopped state -/

/-- A jump to its own address changes nothing (R113). -/
theorem exec_jp_self {s : State} {nnn : Addr12} (h : nnn.toNat = s.pc.toNat) : exec (.jp nnn) s = .next s := by
  have target : nnn.setWidth 16 = s.pc := by
    apply BitVec.eq_of_toNat_eq
    rw [BitVec.toNat_setWidth_of_le (by decide), h]
  rw [jumpResult, target]

theorem step_stopped {s : State} (h : Stopped s) (hsched : s.schedule = []) : step s = .next s := by
  obtain ⟨running, fetchable, nnn, self, hw⟩ := h
  rw [step_next hsched, next_legal running fetchable hw, exec_jp_self self]

/-- Settles O55: a stopped state is a fixed point of the step. -/
theorem stoppedStateStays : Obligations.StoppedStateStays := by
  intro s k stopped hsched
  exact run_fixed (step_stopped stopped hsched) k

end Sys2Proof.Machine
end
